-- ==== Sys2Proof/Word.lean ====
section
/-! DEFINITION. The widths of the block's words. Every value is an unsigned integer of a stated width (R10). -/

namespace Sys2Proof

/-- The byte, the addressable unit of both buffers (R43). -/
abbrev Byte := BitVec 8

/-- A 16-bit value: the accumulator, a CRC, the `VALUE` field of a response (R20, R65). -/
abbrev Half := BitVec 16

/-- A 32-bit value: a parameter register, an immediate operand, a response word (R21, R60, R65). -/
abbrev Word := BitVec 32

/-- A command word, 40 bits: `OP = cmd[39:32]`, `IMM = cmd[31:0]` (R60). -/
abbrev Command := BitVec 40

end Sys2Proof
end

