-- ==== Sys2Proof/Config.lean ====
section
/-! DEFINITION. What the configuration fixes: the constants of R8, and what follows from its one open parameter `RX_CAP`. -/

namespace Sys2Proof

/-- The default of the parameter `RX_CAP`, the capacity of the response buffer (R8, D13). The parameter itself is an argument of
the machine, any value from 0 to 65535 (R8): `Machine.State.rxCap`. -/
def Config.rxCapDefault : BitVec 16 := 100#16

/-- `TX_CAP`, the size of the TX space: the length of a RequestFrameWithCRC (R8, R41). -/
def Config.txCap : Nat := 8

/-- The length of a RequestFrame (R8, R71). -/
def Config.frameLen : Nat := 6

end Sys2Proof
end

