-- ==== Sys2Proof/Syntax.lean ====
section
/-! DEFINITION. The sixteen commands (R68), one constructor per row of spec/opcode_table.json, with the operand of R64. -/

namespace Sys2Proof

/-- The commands of the block, in the order of the opcode map (R68). -/
inductive Instr where
  /-- `CRC.INIT` (R90). -/
  | crcInit
  /-- `CRC.UPD b` (R91). -/
  | crcUpd (b : Byte)
  /-- `CRC.RD` (R92). -/
  | crcRd
  /-- `PAR.ADDR v` (R105). -/
  | parAddr (v : Word)
  /-- `PAR.FUNC v` (R106). -/
  | parFunc (v : Word)
  /-- `PAR.START v` (R107). -/
  | parStart (v : Word)
  /-- `PAR.COUNT v` (R108). -/
  | parCount (v : Word)
  /-- `BUILD` (R109). -/
  | build
  /-- `ATTACH` (R110). -/
  | attach
  /-- `TX.LEN` (R111). -/
  | txLen
  /-- `TX.RD b` (R112). -/
  | txRd (b : Byte)
  /-- `RX.CLR` (R125). -/
  | rxClr
  /-- `RX.PUSH b` (R126). -/
  | rxPush (b : Byte)
  /-- `RX.LEN` (R127). -/
  | rxLen
  /-- `VERIFY` (R128). -/
  | verify
  /-- `RESET` (R140). -/
  | reset
deriving DecidableEq, Repr

/-- The three command formats: no operand, byte operand, word operand (R61 to R63). -/
inductive Format where
  | n
  | b
  | w
deriving DecidableEq, Repr

/-- The format column of the opcode map (R68). -/
def Instr.format : Instr → Format
  | .crcInit => .n
  | .crcUpd _ => .b
  | .crcRd => .n
  | .parAddr _ => .w
  | .parFunc _ => .w
  | .parStart _ => .w
  | .parCount _ => .w
  | .build => .n
  | .attach => .n
  | .txLen => .n
  | .txRd _ => .b
  | .rxClr => .n
  | .rxPush _ => .b
  | .rxLen => .n
  | .verify => .n
  | .reset => .n

/-- The mnemonic column of the opcode map, letter for letter (R68, R75). -/
def Instr.mnemonic : Instr → String
  | .crcInit => "CRC.INIT"
  | .crcUpd _ => "CRC.UPD"
  | .crcRd => "CRC.RD"
  | .parAddr _ => "PAR.ADDR"
  | .parFunc _ => "PAR.FUNC"
  | .parStart _ => "PAR.START"
  | .parCount _ => "PAR.COUNT"
  | .build => "BUILD"
  | .attach => "ATTACH"
  | .txLen => "TX.LEN"
  | .txRd _ => "TX.RD"
  | .rxClr => "RX.CLR"
  | .rxPush _ => "RX.PUSH"
  | .rxLen => "RX.LEN"
  | .verify => "VERIFY"
  | .reset => "RESET"

/-- The operand as an unsigned number, none where the command has none (R64). -/
def Instr.operand : Instr → Option Nat
  | .crcInit => none
  | .crcUpd b => some b.toNat
  | .crcRd => none
  | .parAddr v => some v.toNat
  | .parFunc v => some v.toNat
  | .parStart v => some v.toNat
  | .parCount v => some v.toNat
  | .build => none
  | .attach => none
  | .txLen => none
  | .txRd b => some b.toNat
  | .rxClr => none
  | .rxPush b => some b.toNat
  | .rxLen => none
  | .verify => none
  | .reset => none

end Sys2Proof
end

