-- ==== Sys2Proof/WellFormed.lean ====
section
/-! DEFINITION. Well-formedness: an operand fits its format (R61 to R63, R75). The operands of `Instr` are typed, so every
`Instr` is well-formed; the check can fail on an operand written as a number, where the assembler applies it. -/

namespace Sys2Proof

/-- Format N takes no operand, format B one of 0 to 255, format W one of 0 to 4294967295 (R61, R62, R63, R75). -/
def operandFits : Format → Option Nat → Bool
  | .n, o => o.isNone
  | .b, o => o.any (fun x => decide (x < 2 ^ 8))
  | .w, o => o.any (fun x => decide (x < 2 ^ 32))

/-- An instruction is well-formed when its operand fits its format. -/
def Instr.wellFormed (i : Instr) : Bool := operandFits i.format i.operand

end Sys2Proof
end

