-- ==== Sys2Proof/Decode.lean ====
section
/-! DEFINITION. The decoder, total on every 40-bit word (R69), the encoder, and the opcode map as data (R60 to R64, R68 to R70). -/

namespace Sys2Proof

/-- Why a word is an illegal command: no row has its `OP`, or a reserved bit is set (R69, R70). -/
inductive DecodeError where
  /-- `OP` is not one of the sixteen values. -/
  | unknownOp (op : BitVec 8)
  /-- The reserved bits of the format are not all zero. -/
  | reservedBits (op : BitVec 8)
deriving DecidableEq, Repr

/-- `OP = cmd[39:32]` (R60). -/
def opField (w : Command) : BitVec 8 := w.extractLsb' 32 8

/-- `IMM = cmd[31:0]` (R60). -/
def immField (w : Command) : Word := w.extractLsb' 0 32

/-- Format N: all of `IMM` is reserved and must be zero (R61). -/
def decodeN (op : BitVec 8) (imm : Word) (i : Instr) : Except DecodeError Instr :=
  if imm = 0#32 then .ok i else .error (.reservedBits op)

/-- Format B: `IMM[31:8]` must be zero, the operand is `IMM[7:0]` (R62, R64). -/
def decodeB (op : BitVec 8) (imm : Word) (i : Byte → Instr) : Except DecodeError Instr :=
  if imm.extractLsb' 8 24 = 0#24 then .ok (i (imm.extractLsb' 0 8)) else .error (.reservedBits op)

/-- Format W: no bit is reserved, the operand is `IMM[31:0]` (R63, R64). -/
def decodeW (imm : Word) (i : Word → Instr) : Except DecodeError Instr := .ok (i imm)

/-- The decoder on the two fields: find the row of `OP`, test its format's reserved bits, take the operand (R68, R69). -/
def decodeFields (op : BitVec 8) (imm : Word) : Except DecodeError Instr :=
  match op.toNat with
  | 0x01 => decodeN op imm .crcInit
  | 0x02 => decodeB op imm .crcUpd
  | 0x03 => decodeN op imm .crcRd
  | 0x10 => decodeW imm .parAddr
  | 0x11 => decodeW imm .parFunc
  | 0x12 => decodeW imm .parStart
  | 0x13 => decodeW imm .parCount
  | 0x14 => decodeN op imm .build
  | 0x15 => decodeN op imm .attach
  | 0x16 => decodeN op imm .txLen
  | 0x17 => decodeB op imm .txRd
  | 0x20 => decodeN op imm .rxClr
  | 0x21 => decodeB op imm .rxPush
  | 0x22 => decodeN op imm .rxLen
  | 0x23 => decodeN op imm .verify
  | 0xFF => decodeN op imm .reset
  | _ => .error (.unknownOp op)

/-- The decoder: every 40-bit word is one command or illegal, rejected by name (R69, R70). -/
def decode (w : Command) : Except DecodeError Instr := decodeFields (opField w) (immField w)

/-- The `OP` of each command (R68). -/
def Instr.opcode : Instr → BitVec 8
  | .crcInit => 0x01#8
  | .crcUpd _ => 0x02#8
  | .crcRd => 0x03#8
  | .parAddr _ => 0x10#8
  | .parFunc _ => 0x11#8
  | .parStart _ => 0x12#8
  | .parCount _ => 0x13#8
  | .build => 0x14#8
  | .attach => 0x15#8
  | .txLen => 0x16#8
  | .txRd _ => 0x17#8
  | .rxClr => 0x20#8
  | .rxPush _ => 0x21#8
  | .rxLen => 0x22#8
  | .verify => 0x23#8
  | .reset => 0xFF#8

/-- The `IMM` of each command: zero, the byte operand zero-extended, or the word operand (R61 to R64). -/
def Instr.imm (i : Instr) : Word := BitVec.ofNat 32 (i.operand.getD 0)

/-- The command word of an instruction: `OP` above `IMM` (R60, R68). -/
def encode (i : Instr) : Command := i.opcode ++ i.imm

/-- One row of the opcode map: a word `w` encodes the row's command when `w and mask = match` (R68). -/
structure OpcodeRow where
  mnemonic : String
  pattern : Command
  mask : Command
deriving DecidableEq, Repr

/-- The opcode map as the table of R68 gives it. -/
def opcodeTable : List OpcodeRow :=
  [ ⟨"CRC.INIT", 0x0100000000#40, 0xFFFFFFFFFF#40⟩,
    ⟨"CRC.UPD", 0x0200000000#40, 0xFFFFFFFF00#40⟩,
    ⟨"CRC.RD", 0x0300000000#40, 0xFFFFFFFFFF#40⟩,
    ⟨"PAR.ADDR", 0x1000000000#40, 0xFF00000000#40⟩,
    ⟨"PAR.FUNC", 0x1100000000#40, 0xFF00000000#40⟩,
    ⟨"PAR.START", 0x1200000000#40, 0xFF00000000#40⟩,
    ⟨"PAR.COUNT", 0x1300000000#40, 0xFF00000000#40⟩,
    ⟨"BUILD", 0x1400000000#40, 0xFFFFFFFFFF#40⟩,
    ⟨"ATTACH", 0x1500000000#40, 0xFFFFFFFFFF#40⟩,
    ⟨"TX.LEN", 0x1600000000#40, 0xFFFFFFFFFF#40⟩,
    ⟨"TX.RD", 0x1700000000#40, 0xFFFFFFFF00#40⟩,
    ⟨"RX.CLR", 0x2000000000#40, 0xFFFFFFFFFF#40⟩,
    ⟨"RX.PUSH", 0x2100000000#40, 0xFFFFFFFF00#40⟩,
    ⟨"RX.LEN", 0x2200000000#40, 0xFFFFFFFFFF#40⟩,
    ⟨"VERIFY", 0x2300000000#40, 0xFFFFFFFFFF#40⟩,
    ⟨"RESET", 0xFF00000000#40, 0xFFFFFFFFFF#40⟩ ]

/-- A word encodes the command of a row (R68). -/
def OpcodeRow.encodes (r : OpcodeRow) (w : Command) : Bool := w &&& r.mask == r.pattern

/-- The instruction read from a word given as a number whose bit 0 is `cmd[0]`; bits at `nbits` and above are zero
(DEDUCED, log 6: a command is one word, so the table's bit numbering is that of R60). -/
def decodeTableWord (nbits w : Nat) : Option Instr := (decode (BitVec.ofNat 40 (w % 2 ^ nbits))).toOption

end Sys2Proof
end

