-- ==== Sys2Proof/Machine/State.lean ====
section
/-! DEFINITION. The state of the block as plain data (10_state.md), the host's side of the command and response ports, the
reasons a step can stop, and the state after reset (R30 to R34). -/

namespace Sys2Proof.Machine

/-- The two address spaces, TX and RX; there is no other (R40). -/
inductive Space where
  | tx
  | rx
deriving DecidableEq, Repr

/-- The contents of one space: the valid bytes as cells (index, byte) with strictly rising indices. A byte that is not
listed has no value (R24, R25, R35; DESIGN CHOICE, log 4, safe). -/
abbrev Memory := List Host.Cell

/-- What the host sends: one command word, or the reset event at a command boundary (R15, R161, R170). -/
inductive HostEvent where
  | command (w : Command)
  | reset
deriving DecidableEq, Repr

/-- The whole state. The first nine fields are the block's (10_state.md section 1). `rxCap` is the parameter of R8, an argument
of the machine that no step writes (DESIGN CHOICE, log 3, safe); `host` and `responses` are the host's side of the two ports
and the model's own (R29(a), R29(d); DESIGN CHOICE, log 1, safe). -/
structure State where
  /-- `ACC`, the CRC accumulator (R20). -/
  acc : Half
  /-- `PAR[0]`, alias `PAR.ADDR`, the slave address as given (R21). -/
  parAddr : Word
  /-- `PAR[1]`, alias `PAR.FUNC`, the function code as given (R21). -/
  parFunc : Word
  /-- `PAR[2]`, alias `PAR.START`, the starting register as given (R21). -/
  parStart : Word
  /-- `PAR[3]`, alias `PAR.COUNT`, the register count as given (R21). -/
  parCount : Word
  /-- `TXBUF`, the request frame (R24). -/
  txBuf : Memory
  /-- `TXLEN`, the number of valid bytes of `TXBUF` (R22). -/
  txLen : BitVec 4
  /-- `RXBUF`, the response frame (R25). -/
  rxBuf : Memory
  /-- `RXLEN`, the number of valid bytes of `RXBUF`: `rxLenWidth rxCap` bits, those above them zero (R23). -/
  rxLen : BitVec 16
  /-- `RX_CAP`, the number of bytes of `RXBUF`, 0 to 65535 (R8, R25, R42). -/
  rxCap : BitVec 16
  /-- The commands and reset events the host has still to send, the next one first (R54, R181). -/
  host : List HostEvent
  /-- The response words delivered so far, oldest first (R65, R181). -/
  responses : List Word
deriving DecidableEq, Repr

/-- The reasons a step stops with a fault. Both arise only in states no run from reset reaches (log 5). -/
inductive Fault where
  /-- A byte below the length register is not in the buffer, so its value is unknown. Raised by `memRead`, for `ATTACH`,
  `TX.RD` and `VERIFY`. Safe: the model stops where the spec gives no value (R24, R25). -/
  | unwrittenByte (space : Space) (index : Nat)
  /-- The index is outside the space: TX has 8 bytes, RX has `RX_CAP` (R41, R42). Raised by `memRead` and `memWrite`. Safe. -/
  | outsideSpace (space : Space) (index : Nat)
deriving DecidableEq, Repr

/-- The reasons a step is refused. -/
inductive Refusal where
  /-- The instruction has no meaning in the model yet. Raised by no arm of `exec`: every instruction has its meaning. Safe. -/
  | notModelled (mnemonic : String)
deriving DecidableEq, Repr

/-- What one step answers. -/
abbrev Result := Host.Outcome State Fault Refusal

/-- The state right after reset of a block with `RX_CAP = cap`: `ACC = 0xFFFF` (R30), `PAR = 0` (R31), `TXLEN = 0` (R32),
`RXLEN = 0` (R33), no byte of either buffer valid (R34). The host has sent nothing and got nothing (DESIGN CHOICE, log 1).
-/
def State.resetFor (cap : BitVec 16) : State where
  acc := 0xFFFF#16
  parAddr := 0#32
  parFunc := 0#32
  parStart := 0#32
  parCount := 0#32
  txBuf := []
  txLen := 0#4
  rxBuf := []
  rxLen := 0#16
  rxCap := cap
  host := []
  responses := []

/-- The state right after reset of the block with the default capacity (R8, R30 to R34). -/
def State.reset : State := State.resetFor Config.rxCapDefault

end Sys2Proof.Machine
end

