-- ==== Sys2Proof/Machine/Flags.lean ====
section
/-! DEFINITION. The block has no flags (R28). The outcome of a command is the status in its response word: the status codes
(R66), the errors and their information (R150), and the response word's fields (R65). -/

namespace Sys2Proof.Machine

/-- The status names of R66. -/
inductive Status where
  | ok
  | parameterOutOfRange
  | illegalCommand
  | sequenceError
  | indexOutOfRange
  | bufferFull
deriving DecidableEq, Repr

/-- The status codes (R66). -/
def Status.code : Status → BitVec 4
  | .ok => 0#4
  | .parameterOutOfRange => 1#4
  | .illegalCommand => 2#4
  | .sequenceError => 3#4
  | .indexOutOfRange => 4#4
  | .bufferFull => 5#4

/-- The errors a command or the decoder raises (R150 to R155). -/
inductive Error where
  /-- Raised by `BUILD`, with the number of the field at fault (R151). -/
  | parameterOutOfRange (field : Fin 4)
  /-- Raised for a word that is no command (R152). -/
  | illegalCommand
  /-- Raised by `ATTACH` (R153). -/
  | sequenceError
  /-- Raised by `TX.RD` (R154). -/
  | indexOutOfRange
  /-- Raised by `RX.PUSH` (R155). -/
  | bufferFull
deriving DecidableEq, Repr

/-- The status an error answers with (R150). -/
def Error.status : Error → Status
  | .parameterOutOfRange _ => .parameterOutOfRange
  | .illegalCommand => .illegalCommand
  | .sequenceError => .sequenceError
  | .indexOutOfRange => .indexOutOfRange
  | .bufferFull => .bufferFull

/-- The information an error answers with: the field number, or 0 (R65, R150). -/
def Error.info : Error → BitVec 4
  | .parameterOutOfRange i => BitVec.ofNat 4 i.val
  | .illegalCommand => 0#4
  | .sequenceError => 0#4
  | .indexOutOfRange => 0#4
  | .bufferFull => 0#4

/-- The response word: `STAT`, `INFO`, eight zero bits, `VALUE` (R65). -/
def responseWord (st : Status) (info : BitVec 4) (value : Half) : Word := st.code ++ info ++ 0#8 ++ value

/-- The response of a command that ends well with a value (R65). -/
def okWord (value : Half) : Word := responseWord .ok 0#4 value

/-- The response of a command that ends with an error: `VALUE` is 0 (R65, R150). -/
def errorWord (e : Error) : Word := responseWord e.status e.info 0#16

/-- `STAT = resp[31:28]` (R65). -/
def statField (r : Word) : BitVec 4 := r.extractLsb' 28 4

/-- `INFO = resp[27:24]` (R65). -/
def infoField (r : Word) : BitVec 4 := r.extractLsb' 24 4

/-- `VALUE = resp[15:0]` (R65). -/
def valueField (r : Word) : Half := r.extractLsb' 0 16

end Sys2Proof.Machine
end

