-- ==== Sys2Proof/Machine/Operands.lean ====
section
/-! DEFINITION. Byte halves and byte orders (R12, R45), the widening of a register to a
result (R67), and the width of `RXLEN` (R23). -/

namespace Sys2Proof.Machine

/-- `hi8(v) = v[15:8]` (R12). -/
def hi8 (v : Half) : Byte := v.extractLsb' 8 8

/-- `lo8(v) = v[7:0]` (R12). -/
def lo8 (v : Half) : Byte := v.extractLsb' 0 8

/-- `be16(h, l) = (h << 8) + l`: the high byte comes first in the sequence (R12). -/
def be16 (h l : Byte) : Half := h ++ l

/-- `le16(l, h) = (h << 8) + l`: the low byte comes first in the sequence (R12). -/
def le16 (l h : Byte) : Half := h ++ l

/-- `v[7:0]` of a parameter register (R10, R109). -/
def byte0 (v : Word) : Byte := v.extractLsb' 0 8

/-- `v[15:8]` of a parameter register (R10, R109). -/
def byte1 (v : Word) : Byte := v.extractLsb' 8 8

/-- `zext_16` of a byte, a length register or a truth value (R13, R67). -/
def zext16 {n : Nat} (v : BitVec n) : Half := v.setWidth 16

/-- The number of bits of `RXLEN`: as many as hold `RX_CAP`, 7 for 100 (R23). -/
def rxLenWidth (cap : BitVec 16) : Nat := Nat.log2 cap.toNat + 1

/-- What a register of that many bits keeps of a value (R23). The model writes the register as 16 bits, the most any `RX_CAP`
needs (R8), with the bits above its width zero. -/
def rxLenBits (cap n : BitVec 16) : BitVec 16 := (n.setWidth (rxLenWidth cap)).setWidth 16

end Sys2Proof.Machine
end

