-- ==== Sys2Proof/Machine/Ops.lean ====
section
/-! DEFINITION. The named operations over the buffers and the registers: byte reads and writes (R13, R44), the length
registers, `respond` and `raise` (R13, R150), and reset (R170). -/

namespace Sys2Proof.Machine

/-- The byte at an index, none where no byte is listed. -/
def Memory.read : Memory → Nat → Option Byte
  | [], _ => none
  | (a, b) :: m, i => if a = i then some b else Memory.read m i

/-- Put a byte at an index, keeping the indices rising. -/
def Memory.write : Memory → Nat → Byte → Memory
  | [], i, v => [(i, v)]
  | (a, b) :: m, i, v =>
    if i < a then (i, v) :: (a, b) :: m
    else if i = a then (i, v) :: m
    else (a, b) :: Memory.write m i v

/-- Keep the bytes below a length: those at or above it stop being valid (R109, R125, R140; log 4). -/
def Memory.truncate (m : Memory) (n : Nat) : Memory := m.filter (fun c => decide (c.1 < n))

/-- The canonical form: indices strictly rising. -/
abbrev Memory.wf (m : Memory) : Prop := m.Pairwise (fun c d => c.1 < d.1)

/-- The cells of a byte sequence laid out from a first index on. -/
def Memory.ofBytes : Nat → List Byte → Memory
  | _, [] => []
  | i, b :: bs => (i, b) :: Memory.ofBytes (i + 1) bs

/-- The buffer of a space (R40). -/
def State.buf (s : State) : Space → Memory
  | .tx => s.txBuf
  | .rx => s.rxBuf

/-- Replace the buffer of a space. -/
def State.setBuf (s : State) (sp : Space) (m : Memory) : State :=
  match sp with
  | .tx => { s with txBuf := m }
  | .rx => { s with rxBuf := m }

/-- `MemRead(S:i, 1)` in a space of `size` bytes (R13, R41, R42). -/
def memRead (sp : Space) (size i : Nat) (s : State) : Except Fault Byte :=
  if i < size then
    match (s.buf sp).read i with
    | some b => .ok b
    | none => .error (.unwrittenByte sp i)
  else .error (.outsideSpace sp i)

/-- `MemWrite(S:i, 1, v)` in a space of `size` bytes (R13, R41, R42). -/
def memWrite (sp : Space) (size i : Nat) (v : Byte) (s : State) : Except Fault State :=
  if i < size then .ok (s.setBuf sp ((s.buf sp).write i v)) else .error (.outsideSpace sp i)

/-- `n` one-byte reads at rising indices from `i` on (R44). -/
def memReadSeq (sp : Space) (size : Nat) (s : State) : Nat → Nat → Except Fault (List Byte)
  | _, 0 => .ok []
  | i, n + 1 =>
    match memRead sp size i s with
    | .error f => .error f
    | .ok b =>
      match memReadSeq sp size s (i + 1) n with
      | .error f => .error f
      | .ok bs => .ok (b :: bs)

/-- One-byte writes at rising indices from `i` on (R44). -/
def memWriteSeq (sp : Space) (size : Nat) : Nat → List Byte → State → Except Fault State
  | _, [], s => .ok s
  | i, b :: bs, s =>
    match memWrite sp size i b s with
    | .error f => .error f
    | .ok s' => memWriteSeq sp size (i + 1) bs s'

/-- `TXLEN <- n`; the bytes at `n` and above stop being valid (R22, R109). -/
def State.setTxLen (s : State) (n : BitVec 4) : State := { s with txLen := n, txBuf := s.txBuf.truncate n.toNat }

/-- `RXLEN <- n`, in a register of as many bits as hold `RX_CAP`; the bytes at the length and above stop being valid
(R23, R125). -/
def State.setRxLen (s : State) (n : BitVec 16) : State :=
  { s with rxLen := rxLenBits s.rxCap n, rxBuf := s.rxBuf.truncate (rxLenBits s.rxCap n).toNat }

/-- `PAR[i]`, the register file by number (R13, R21). -/
def State.par (s : State) : Fin 4 → Word
  | 0 => s.parAddr
  | 1 => s.parFunc
  | 2 => s.parStart
  | 3 => s.parCount

/-- `PAR[i] <- v` (R13, R21). -/
def State.setPar (s : State) (i : Fin 4) (v : Word) : State :=
  match i with
  | 0 => { s with parAddr := v }
  | 1 => { s with parFunc := v }
  | 2 => { s with parStart := v }
  | 3 => { s with parCount := v }

/-- `ACC <- v` (R20). -/
def State.setAcc (s : State) (v : Half) : State := { s with acc := v }

/-- Deliver one response word to the host (R65; log 1). -/
def State.answer (s : State) (r : Word) : State := { s with responses := s.responses ++ [r] }

/-- `respond(v)`: the command ends with status `OK` and the value `v` (R13). -/
def respond (v : Half) (s : State) : Result := .next (s.answer (okWord v))

/-- `raise <Error>(info)`: the block's one error mechanism. No state changes, nothing is latched, the response word carries
the status and the information (R13, R150). There is no return from it: the next command runs at once (R160). -/
def raise (e : Error) (s : State) : Result := .next (s.answer (errorWord e))

/-- Go on with what a buffer access gives, or stop with its fault (log 5). -/
def withAccess {α : Type} (r : Except Fault α) (k : α → Result) : Result :=
  match r with
  | .ok a => k a
  | .error f => .fault f

/-- Every piece of state to its reset value, shared by the reset event and `RESET` (R140, R170, R171). `RX_CAP` is no state and
stays (R29(c)). -/
def State.resetBlock (s : State) : State :=
  ((((((s.setAcc 0xFFFF#16).setPar 0 0#32).setPar 1 0#32).setPar 2 0#32).setPar 3 0#32).setTxLen 0#4).setRxLen 0#16

end Sys2Proof.Machine
end

