-- ==== Sys2Proof/Machine/Crc.lean ====
section
/-! DEFINITION. The CRC Engine: its functions (R80 to R86) and the meanings of `CRC.INIT`, `CRC.UPD`, `CRC.RD` (R90 to R92). -/

namespace Sys2Proof.Machine

/-- `crc_shift(a)`, one repetition of step 3: the low bit is tested before the shift (R80). -/
def crcShift (a : Half) : Half := if a.getLsbD 0 then (a >>> 1) ^^^ 0xA001#16 else a >>> 1

/-- `repeat 8 times` of `crc_shift`, by count (R81). -/
def crcShifts : Nat → Half → Half
  | 0, a => a
  | n + 1, a => crcShifts n (crcShift a)

/-- `crc_byte(a, b)`: XOR the byte into the low 8 bits, then eight shifts (R81). -/
def crcByte (a : Half) (b : Byte) : Half := crcShifts 8 (a ^^^ zext16 b)

/-- `crc_fold(a, data)`: the bytes in index order, from accumulator `a` (R82, R85). -/
def crcFold : Half → List Byte → Half
  | a, [] => a
  | a, b :: bs => crcFold (crcByte a b) bs

/-- `compute_crc(data)`: started from `0xFFFF`, no final XOR (R82). -/
def computeCrc (data : List Byte) : Half := crcFold 0xFFFF#16 data

/-- `T[i] = crc_byte(0, i)`, the table of the table form (R86). -/
def crcTable (i : Byte) : Half := crcByte 0x0000#16 i

/-- `CRC.INIT` (R90). -/
def execCrcInit (s : State) : Result := respond 0#16 (s.setAcc 0xFFFF#16)

/-- `CRC.UPD b` (R91). -/
def execCrcUpd (b : Byte) (s : State) : Result := respond 0#16 (s.setAcc (crcByte s.acc b))

/-- `CRC.RD` (R92). -/
def execCrcRd (s : State) : Result := respond s.acc s

end Sys2Proof.Machine
end

