-- ==== Sys2Proof/Machine/Builder.lean ====
section
/-! DEFINITION. The Frame Builder: its functions (R100 to R103) and the meanings of its eight commands (R104 to R112). -/

namespace Sys2Proof.Machine

/-- What `check_params` returns (R101). -/
inductive ParamCheck where
  | valid
  | outOfRange (field : Fin 4)
deriving DecidableEq, Repr

/-- `check_params(a, f, s, c)`: the lowest field out of its range, on unsigned integers (R100, R101, R9). -/
def checkParams (a f s c : Nat) : ParamCheck :=
  if a > 255 then .outOfRange 0
  else if f > 255 then .outOfRange 1
  else if s > 65535 then .outOfRange 2
  else if c < 1 ∨ c > 125 then .outOfRange 3
  else .valid

/-- `check_params` on the four parameter registers (R104, R109). -/
def State.checkParams (s : State) : ParamCheck :=
  Sys2Proof.Machine.checkParams s.parAddr.toNat s.parFunc.toNat s.parStart.toNat s.parCount.toNat

/-- `build_request(a, f, s, c)`: one byte, one byte, two big-endian pairs (R71, R102). -/
def buildRequest (a f s c : Word) : List Byte := [byte0 a, byte0 f, byte1 s, byte0 s, byte1 c, byte0 c]

/-- The CRC of a byte sequence as two bytes, low byte first (R45, R72). -/
def crcBytes (frame : List Byte) : List Byte := [lo8 (computeCrc frame), hi8 (computeCrc frame)]

/-- `attach_crc(frame) = frame || [lo8(c), hi8(c)]` with `c = compute_crc(frame)` (R103). The rule gives it on six bytes;
the block applies it to six bytes only (`execAttach`). -/
def attachCrc (frame : List Byte) : List Byte := frame ++ crcBytes frame

/-- `PAR.ADDR v` (R105). -/
def execParAddr (v : Word) (s : State) : Result := respond 0#16 (s.setPar 0 v)

/-- `PAR.FUNC v` (R106). -/
def execParFunc (v : Word) (s : State) : Result := respond 0#16 (s.setPar 1 v)

/-- `PAR.START v` (R107). -/
def execParStart (v : Word) (s : State) : Result := respond 0#16 (s.setPar 2 v)

/-- `PAR.COUNT v` (R108). -/
def execParCount (v : Word) (s : State) : Result := respond 0#16 (s.setPar 3 v)

/-- `BUILD` (R109). -/
def execBuild (s : State) : Result :=
  match s.checkParams with
  | .outOfRange i => raise (.parameterOutOfRange i) s
  | .valid =>
    withAccess (memWriteSeq .tx Config.txCap 0 (buildRequest s.parAddr s.parFunc s.parStart s.parCount) s)
      (fun s' => respond 0#16 (s'.setTxLen 6#4))

/-- `ATTACH` (R110). -/
def execAttach (s : State) : Result :=
  if s.txLen = 6#4 then
    withAccess (memReadSeq .tx Config.txCap s 0 Config.frameLen) (fun frame =>
      withAccess (memWriteSeq .tx Config.txCap Config.frameLen (crcBytes frame) s)
        (fun s' => respond 0#16 (s'.setTxLen 8#4)))
  else raise .sequenceError s

/-- `TX.LEN` (R111). -/
def execTxLen (s : State) : Result := respond (zext16 s.txLen) s

/-- `TX.RD b` (R112). -/
def execTxRd (b : Byte) (s : State) : Result :=
  if s.txLen.toNat ≤ b.toNat then raise .indexOutOfRange s
  else withAccess (memRead .tx Config.txCap b.toNat s) (fun v => respond (zext16 v) s)

end Sys2Proof.Machine
end

