-- ==== Sys2Proof/Machine/System.lean ====
section
/-! DEFINITION. The one system command, `RESET` (R140, R141). -/

namespace Sys2Proof.Machine

/-- `RESET`: the effect of the reset event, and a response word (R140, R171). -/
def execReset (s : State) : Result := respond 0#16 s.resetBlock

end Sys2Proof.Machine
end

