-- ==== Sys2Proof/Machine/Validator.lean ====
section
/-! DEFINITION. The Response Validator: `verify` (R120), the host-side `payload_of` (R121), and the meanings of `RX.CLR`,
`RX.PUSH`, `RX.LEN`, `VERIFY` (R125 to R128). -/

namespace Sys2Proof.Machine

/-- `verify(r)`: false up to two bytes, else the CRC of the body against the last two bytes, little-endian (R120). -/
def verifyBytes (r : List Byte) : Bool :=
  if r.length ≤ 2 then false
  else computeCrc (r.take (r.length - 2)) == le16 (r.getD (r.length - 2) 0#8) (r.getD (r.length - 1) 0#8)

/-- `payload_of(r) = r[3 .. n-2]` of a validated response; none when it does not verify; empty when the slice is (R121,
decision D20; log 9). A host-side function: the block has no command for it. -/
def payloadOf (r : List Byte) : Option (List Byte) :=
  if verifyBytes r then some ((r.take (r.length - 2)).drop 3) else none

/-- `RX.CLR` (R125). -/
def execRxClr (s : State) : Result := respond 0#16 (s.setRxLen 0#16)

/-- `RX.PUSH b` (R126). -/
def execRxPush (b : Byte) (s : State) : Result :=
  if s.rxLen = s.rxCap then raise .bufferFull s
  else withAccess (memWrite .rx s.rxCap.toNat s.rxLen.toNat b s) (fun s' => respond 0#16 (s'.setRxLen (s'.rxLen + 1#16)))

/-- `RX.LEN` (R127). -/
def execRxLen (s : State) : Result := respond (zext16 s.rxLen) s

/-- `VERIFY` (R128). -/
def execVerify (s : State) : Result :=
  withAccess (memReadSeq .rx s.rxCap.toNat s 0 s.rxLen.toNat)
    (fun r => if verifyBytes r then respond 1#16 s else respond 0#16 s)

end Sys2Proof.Machine
end

