-- ==== Sys2Proof/Machine/Dispatch.lean ====
section
/-! DEFINITION. One arm per command, each one direct call of its meaning (R68). -/

namespace Sys2Proof.Machine

def exec (i : Instr) (s : State) : Host.Outcome State Fault Refusal :=
  match i with
  | .crcInit => Sys2Proof.Machine.execCrcInit s
  | .crcUpd b => Sys2Proof.Machine.execCrcUpd b s
  | .crcRd => Sys2Proof.Machine.execCrcRd s
  | .parAddr v => Sys2Proof.Machine.execParAddr v s
  | .parFunc v => Sys2Proof.Machine.execParFunc v s
  | .parStart v => Sys2Proof.Machine.execParStart v s
  | .parCount v => Sys2Proof.Machine.execParCount v s
  | .build => Sys2Proof.Machine.execBuild s
  | .attach => Sys2Proof.Machine.execAttach s
  | .txLen => Sys2Proof.Machine.execTxLen s
  | .txRd b => Sys2Proof.Machine.execTxRd b s
  | .rxClr => Sys2Proof.Machine.execRxClr s
  | .rxPush b => Sys2Proof.Machine.execRxPush b s
  | .rxLen => Sys2Proof.Machine.execRxLen s
  | .verify => Sys2Proof.Machine.execVerify s
  | .reset => Sys2Proof.Machine.execReset s

end Sys2Proof.Machine
end

