-- ==== Sys2Proof/Machine/Port.lean ====
section
/-! DEFINITION. What the block does with what the host sends: a command word is decoded and executed or answered with
`IllegalCommand` (R69, R152), a reset event resets (R170). -/

namespace Sys2Proof.Machine

/-- One command word: decoding comes first, then the command (R69, R157). -/
def runCommand (w : Command) (s : State) : Result :=
  match decode w with
  | .ok i => exec i s
  | .error _ => raise .illegalCommand s

/-- One thing the host sends. The reset event has the effect of `RESET` without its response word (R170, R171; DEDUCED, log 2). -/
def runEvent (e : HostEvent) (s : State) : Result :=
  match e with
  | .command w => runCommand w s
  | .reset => .next s.resetBlock

/-- Take the host's next event and run it; with none the block does nothing (R54, R181; DESIGN CHOICE, log 2). -/
def runNext (s : State) : Result :=
  match s.host with
  | [] => .next s
  | e :: rest => runEvent e { s with host := rest }

/-- The host presents this command next, before what it has still to send (log 6). -/
def State.present (s : State) (w : Command) : State := { s with host := .command w :: s.host }

end Sys2Proof.Machine
end

