-- ==== Sys2Proof/Machine/Step.lean ====
section
/-! DEFINITION. One step: one command or reset event of the host (R7, R15, R171). -/

namespace Sys2Proof.Machine

/-- One step of the block. -/
def step (s : State) : Host.Outcome State Fault Refusal := runNext s

/-- The state with an instruction where `step` takes its next one: the host presents the word next (log 6). -/
def State.withFetchWord (s : State) (nbits w : Nat) : State := s.present (BitVec.ofNat 40 (w % 2 ^ nbits))

end Sys2Proof.Machine
end

