-- ==== Sys2Proof/Machine/Asm.lean ====
section
/-! DEFINITION. Host-side text: the pseudo-instructions (R76), the assembler syntax (R75), and a program as the host sends it
(R181). The block itself has no assembler; log 10 says what the rules leave open. -/

namespace Sys2Proof.Machine

/-- The pseudo-instructions (R76). -/
inductive Pseudo where
  /-- `CRC.COMPUTE b0 ... bk`. -/
  | crcCompute (data : List Byte)
  /-- `REQUEST a f s c`. -/
  | request (a f s c : Word)
  /-- `TX.DUMP`. -/
  | txDump
  /-- `RX.LOAD b0 ... bk`. -/
  | rxLoad (data : List Byte)
  /-- `CHECK b0 ... bk`. -/
  | check (data : List Byte)
deriving DecidableEq, Repr

/-- The command sequence a pseudo-instruction stands for (R76). -/
def Pseudo.expand : Pseudo → List Instr
  | .crcCompute data => .crcInit :: (data.map .crcUpd ++ [.crcRd])
  | .request a f s c => [.parAddr a, .parFunc f, .parStart s, .parCount c, .build, .attach]
  | .txDump => [.txRd 0#8, .txRd 1#8, .txRd 2#8, .txRd 3#8, .txRd 4#8, .txRd 5#8, .txRd 6#8, .txRd 7#8]
  | .rxLoad data => .rxClr :: data.map .rxPush
  | .check data => .rxClr :: (data.map .rxPush ++ [.verify])

/-- A command sequence as the host sends it, one word per command (R60, R181). -/
def hostProgram (is : List Instr) : List HostEvent := is.map (fun i => .command (encode i))

/-- Text from `;` to the end of the line is a comment (R75). -/
def stripComment (line : List Char) : List Char := line.takeWhile (· != ';')

/-- The words of a line, separated by one or more spaces (R75); `cur` is the word being read. -/
def splitWords (cur : List Char) : List Char → List (List Char)
  | [] => if cur.isEmpty then [] else [cur]
  | c :: cs =>
    if c = ' ' then (if cur.isEmpty then splitWords [] cs else cur :: splitWords [] cs)
    else splitWords (cur ++ [c]) cs

/-- The digits of a number, each at the index that is its value; a decimal number uses the first ten (R75). -/
def digits : List Char := "0123456789ABCDEF".toList

/-- The value of a digit: its place among the first `base` digits, in either letter case (log 10). -/
def digitValue (base : Nat) (c : Char) : Option Nat := (digits.take base).findIdx? (· == c.toUpper)

/-- The value of a digit string, its first digit the most significant. -/
def digitsValue (base : Nat) (cs : List Char) : Option Nat :=
  (cs.mapM (digitValue base)).map (List.foldl (fun n d => base * n + d) 0)

/-- An operand: an unsigned number, decimal, or hexadecimal with the prefix `0x` (R75). -/
def parseNumber : List Char → Option Nat
  | [] => none
  | ['0', 'x'] => none
  | '0' :: 'x' :: ds => digitsValue 16 ds
  | ds => digitsValue 10 ds

/-- Several operands. -/
def parseNumbers : List (List Char) → Option (List Nat)
  | [] => some []
  | w :: ws =>
    match parseNumber w, parseNumbers ws with
    | some n, some ns => some (n :: ns)
    | _, _ => none

/-- Byte operands; a number that does not fit is refused (R75). -/
def byteOperands : List Nat → Option (List Byte)
  | [] => some []
  | n :: ns =>
    match byteOperands ns with
    | some bs => if operandFits .b (some n) then some (BitVec.ofNat 8 n :: bs) else none
    | none => none

/-- A format N line. -/
def asmN (i : Instr) (ops : List Nat) : Option (List Instr) := if ops.isEmpty then some [i] else none

/-- A format B line. -/
def asmB (i : Byte → Instr) : List Nat → Option (List Instr)
  | [n] => if operandFits .b (some n) then some [i (BitVec.ofNat 8 n)] else none
  | _ => none

/-- A format W line. -/
def asmW (i : Word → Instr) : List Nat → Option (List Instr)
  | [n] => if operandFits .w (some n) then some [i (BitVec.ofNat 32 n)] else none
  | _ => none

/-- A pseudo-instruction over bytes. -/
def asmBytes (p : List Byte → Pseudo) (ops : List Nat) : Option (List Instr) := (byteOperands ops).map (fun bs => (p bs).expand)

/-- `REQUEST a f s c`. -/
def asmRequest : List Nat → Option (List Instr)
  | [a, f, s, c] =>
    if [a, f, s, c].all (fun n => operandFits .w (some n)) then
      some (Pseudo.request (BitVec.ofNat 32 a) (BitVec.ofNat 32 f) (BitVec.ofNat 32 s) (BitVec.ofNat 32 c)).expand
    else none
  | _ => none

/-- `TX.DUMP`. -/
def asmDump (ops : List Nat) : Option (List Instr) := if ops.isEmpty then some Pseudo.txDump.expand else none

/-- The commands of one mnemonic with its operands (R68, R75, R76). -/
def assembleWords (mnemonic : String) (ops : List Nat) : Option (List Instr) :=
  match mnemonic with
  | "CRC.INIT" => asmN .crcInit ops
  | "CRC.UPD" => asmB .crcUpd ops
  | "CRC.RD" => asmN .crcRd ops
  | "PAR.ADDR" => asmW .parAddr ops
  | "PAR.FUNC" => asmW .parFunc ops
  | "PAR.START" => asmW .parStart ops
  | "PAR.COUNT" => asmW .parCount ops
  | "BUILD" => asmN .build ops
  | "ATTACH" => asmN .attach ops
  | "TX.LEN" => asmN .txLen ops
  | "TX.RD" => asmB .txRd ops
  | "RX.CLR" => asmN .rxClr ops
  | "RX.PUSH" => asmB .rxPush ops
  | "RX.LEN" => asmN .rxLen ops
  | "VERIFY" => asmN .verify ops
  | "RESET" => asmN .reset ops
  | "CRC.COMPUTE" => asmBytes .crcCompute ops
  | "REQUEST" => asmRequest ops
  | "TX.DUMP" => asmDump ops
  | "RX.LOAD" => asmBytes .rxLoad ops
  | "CHECK" => asmBytes .check ops
  | _ => none

/-- The commands of one line; an empty line has none (R75). -/
def assembleLine (line : String) : Option (List Instr) :=
  match splitWords [] (stripComment line.toList) with
  | [] => some []
  | m :: ws =>
    match parseNumbers ws with
    | some ns => assembleWords (String.ofList m) ns
    | none => none

/-- The commands of a program, one command or pseudo-instruction a line (R75, R76). -/
def assemble : List String → Option (List Instr)
  | [] => some []
  | l :: ls =>
    match assembleLine l, assemble ls with
    | some is, some rest => some (is ++ rest)
    | _, _ => none

end Sys2Proof.Machine
end

