-- ==== Sys2Proof/Safety.lean ====
section
/-! DEFINITION. The state invariants of R26 and what a safe step is: it answers a next state that keeps them. -/

namespace Sys2Proof.Machine

/-- The valid bytes of a buffer, in index order (R24, R25). -/
def Memory.bytes (m : Memory) : List Byte := m.map Prod.snd

/-- A buffer holds exactly the bytes at indices 0 to `n-1` (R24, R25, R35). -/
def Memory.holds (m : Memory) (n : Nat) : Prop := m.bytes.length = n ∧ m = Memory.ofBytes 0 m.bytes

/-- The bytes are a request built from valid parameters (R26, R102). -/
def IsRequest (frame : List Byte) : Prop :=
  ∃ a f s c : Word, checkParams a.toNat f.toNat s.toNat c.toNat = .valid ∧ frame = buildRequest a f s c

/-- The request side of R26: no frame, a RequestFrame, or a RequestFrameWithCRC. -/
def State.TxInv (s : State) : Prop :=
  s.txBuf.holds s.txLen.toNat ∧
  (s.txLen = 0#4 ∨ (s.txLen = 6#4 ∧ IsRequest s.txBuf.bytes) ∨
    (s.txLen = 8#4 ∧ ∃ frame, IsRequest frame ∧ s.txBuf.bytes = attachCrc frame))

/-- The response side of R26: at most `RX_CAP` bytes. -/
def State.RxInv (s : State) : Prop := s.rxBuf.holds s.rxLen.toNat ∧ s.rxLen.toNat ≤ s.rxCap.toNat

/-- The state invariants of R26. -/
def State.Inv (s : State) : Prop := s.TxInv ∧ s.RxInv

/-- The byte a command absorbs into `ACC`: `CRC.UPD` alone absorbs one (R20, R91). -/
def absorbedByte : Instr → Option Byte
  | .crcInit => none
  | .crcUpd b => some b
  | .crcRd => none
  | .parAddr _ => none
  | .parFunc _ => none
  | .parStart _ => none
  | .parCount _ => none
  | .build => none
  | .attach => none
  | .txLen => none
  | .txRd _ => none
  | .rxClr => none
  | .rxPush _ => none
  | .rxLen => none
  | .verify => none
  | .reset => none

/-- The bytes absorbed since the last `CRC.INIT` or reset, after the host's next event, when `data` were before it (R20, R93). -/
def bytesSinceInit (data : List Byte) : List HostEvent → List Byte
  | [] => data
  | .reset :: _ => []
  | .command w :: _ =>
    match decode w with
    | .ok .crcInit => []
    | .ok .reset => []
    | .ok (.crcUpd b) => data ++ [b]
    | _ => data

/-- A step is safe when it answers a next state that keeps the invariants: no fault, no refusal. -/
def SafeOutcome (o : Result) : Prop := ∃ t, o = .next t ∧ t.Inv

/-- A run of `n` steps, each on the state the one before left, ending at the first stop (R54, R181). -/
def runSteps : Nat → State → Result
  | 0, s => .next s
  | n + 1, s =>
    match step s with
    | .next t => runSteps n t
    | .fault r => .fault r
    | .refused r => .refused r

end Sys2Proof.Machine
end

