-- ==== Sys2Proof/Certificates/Slice0/Obligations.lean ====
section
/-! DEFINITION. The statements for the provers. Each docstring names the rules of spec/ it formalises; "the model's choice"
marks a clause that rests on an entry of the assumption log. -/

open Sys2Proof Sys2Proof.Machine

/-! ### Encoding and decoding -/

/-- Words written out from the opcode map and from 95_test_vectors.md V6 decode as the spec says, one or more of each family,
and words with a reserved bit or an unassigned `OP` are refused. -/
def Obligations.SpecWordsDecode : Prop :=
  decode 0x0100000000#40 = .ok .crcInit ∧
  decode 0x02000000FF#40 = .ok (.crcUpd 0xFF#8) ∧
  decode 0x10FFFFFFFF#40 = .ok (.parAddr 4294967295#32) ∧
  decode 0x130000007D#40 = .ok (.parCount 125#32) ∧
  decode 0x1700000007#40 = .ok (.txRd 7#8) ∧
  decode 0x2100000001#40 = .ok (.rxPush 1#8) ∧
  decode 0x2300000000#40 = .ok .verify ∧
  decode 0xFF00000000#40 = .ok .reset ∧
  decode 0x0000000000#40 = .error (.unknownOp 0x00#8) ∧
  decode 0x2400000000#40 = .error (.unknownOp 0x24#8) ∧
  decode 0x0100000001#40 = .error (.reservedBits 0x01#8) ∧
  decode 0x0200000100#40 = .error (.reservedBits 0x02#8) ∧
  decode 0xFF80000000#40 = .error (.reservedBits 0xFF#8)

/-- Decode and encode agree: the word of every instruction, at every operand value, decodes to that instruction (R60 to R64,
R68, R69). -/
def Obligations.DecodeOfEncode : Prop :=
  ∀ i : Instr, i.wellFormed = true ∧ decode (encode i) = .ok i

/-- Each command has one word only: a word that decodes to an instruction is that instruction's encoding (R64, R68). -/
def Obligations.EncodeOfDecode : Prop :=
  ∀ (w : Command) (i : Instr), decode w = .ok i → encode i = w

/-- The opcode map (R68): sixteen rows; a word encodes the command of a row exactly when `w and mask = match`; the rows are
mutually exclusive. -/
def Obligations.DecodeFollowsOpcodeTable : Prop :=
  opcodeTable.length = 16 ∧
  (∀ w : Command, ∀ r ∈ opcodeTable, w &&& r.mask = r.pattern ↔ ∃ i, decode w = .ok i ∧ i.mnemonic = r.mnemonic) ∧
  (∀ w : Command, ∀ r ∈ opcodeTable, ∀ r' ∈ opcodeTable, w &&& r.mask = r.pattern → w &&& r'.mask = r'.pattern → r = r')

/-- Fields and operands (R60 to R64): `OP` is bits 39 to 32; a format N command has no operand and zero `IMM`; a format B
operand is `IMM[7:0]` with `IMM[31:8]` zero; a format W operand is all of `IMM`. -/
def Obligations.DecodeOperands : Prop :=
  ∀ (w : Command) (i : Instr), decode w = .ok i →
    w.extractLsb' 32 8 = i.opcode ∧
    (i.format = .n → i.operand = none ∧ w.extractLsb' 0 32 = 0#32) ∧
    (i.format = .b → i.operand = some (w.extractLsb' 0 8).toNat ∧ w.extractLsb' 8 24 = 0#24) ∧
    (i.format = .w → i.operand = some (w.extractLsb' 0 32).toNat)

/-- Illegal encodings (R70): exactly the words whose `OP` is none of the sixteen and the words with a reserved bit set; each
answers `IllegalCommand` and changes no state (R69, R70, R152). -/
def Obligations.IllegalWordsAnswerIllegalCommand : Prop :=
  ∀ (s : State) (w : Command) (rest : List HostEvent),
    (w.extractLsb' 32 8 ∉ [0x01#8, 0x02#8, 0x03#8, 0x10#8, 0x11#8, 0x12#8, 0x13#8, 0x14#8, 0x15#8, 0x16#8, 0x17#8,
        0x20#8, 0x21#8, 0x22#8, 0x23#8, 0xFF#8] ∨
      (w.extractLsb' 32 8 ∈ [0x01#8, 0x03#8, 0x14#8, 0x15#8, 0x16#8, 0x20#8, 0x22#8, 0x23#8, 0xFF#8] ∧
        w.extractLsb' 0 32 ≠ 0#32) ∨
      (w.extractLsb' 32 8 ∈ [0x02#8, 0x17#8, 0x21#8] ∧ w.extractLsb' 8 24 ≠ 0#24) ↔ ∀ i, decode w ≠ .ok i) ∧
    ((∀ i, decode w ≠ .ok i) →
      step { s with host := .command w :: rest } =
        .next { s with host := rest, responses := s.responses ++ [0x20000000#32] })

/-- The pseudo-instructions are the command sequences of R76. -/
def Obligations.PseudoInstructionsExpand : Prop :=
  (∀ data, (Pseudo.crcCompute data).expand = [Instr.crcInit] ++ data.map Instr.crcUpd ++ [Instr.crcRd]) ∧
  (∀ a f s c, (Pseudo.request a f s c).expand =
    [Instr.parAddr a, Instr.parFunc f, Instr.parStart s, Instr.parCount c, Instr.build, Instr.attach]) ∧
  Pseudo.txDump.expand = (List.range 8).map (fun k => Instr.txRd (BitVec.ofNat 8 k)) ∧
  (∀ data, (Pseudo.rxLoad data).expand = [Instr.rxClr] ++ data.map Instr.rxPush) ∧
  (∀ data, (Pseudo.check data).expand = (Pseudo.rxLoad data).expand ++ [Instr.verify])

/-! ### The step, the host, reset -/

/-- A step runs the decoded instruction: when the host's next word decodes to an instruction, the step is `exec` of it at the
state in which the host has that word no longer to send (R54, R69). -/
def Obligations.StepRunsDecodedInstruction : Prop :=
  ∀ (s : State) (w : Command) (rest : List HostEvent) (i : Instr), decode w = .ok i → i.wellFormed = true →
    step { s with host := .command w :: rest } = exec i { s with host := rest }

/-- The reset event puts every piece of the block's state to its reset value, from any state (R170). That it delivers no
response word is the model's reading (log 2). -/
def Obligations.ResetEventRestoresResetState : Prop :=
  ∀ (s : State) (rest : List HostEvent),
    step { s with host := .reset :: rest } = .next { State.resetFor s.rxCap with host := rest, responses := s.responses }

/-- The reset values: `ACC = 0xFFFF`, so that a stream without `CRC.INIT` gives the same CRC (R30), the parameter registers 0,
so that `BUILD` fails on the count field (R31), `TXLEN = 0` and no frame (R32), `RXLEN = 0` and an empty response, which fails
validation (R33), and no byte of either buffer valid (R34);
whatever `RX_CAP` the block has, 100 by default (R8). -/
def Obligations.ResetValues : Prop :=
  State.reset = State.resetFor 100#16 ∧
  ∀ cap : BitVec 16,
    (State.resetFor cap).acc = 0xFFFF#16 ∧ (∀ data : List Byte, crcFold (State.resetFor cap).acc data = computeCrc data) ∧
    (∀ i, (State.resetFor cap).par i = 0#32) ∧
    (State.resetFor cap).txLen.toNat = 0 ∧ (State.resetFor cap).rxLen.toNat = 0 ∧
    (∀ a, (State.resetFor cap).txBuf.read a = none) ∧ (∀ a, (State.resetFor cap).rxBuf.read a = none) ∧
    exec .build (State.resetFor cap) = .next { State.resetFor cap with responses := [0x13000000#32] } ∧
    exec .verify (State.resetFor cap) = .next { State.resetFor cap with responses := [0x00000000#32] }

/-- Every command is answered by one response word whose fields are as R65 and R66 say: codes 0 to 5 only, bits 23 to 16 zero,
`VALUE` 0 on an error, `INFO` 0 but for `ParameterOutOfRange`, where it is 0 to 3. The reset event and an idle step deliver
none. -/
def Obligations.EveryCommandGetsOneResponseWord : Prop :=
  ∀ s t : State, step s = .next t →
    (s.host = [] ∧ t = s) ∨
    (∃ rest, s.host = .reset :: rest ∧ t.host = rest ∧ t.responses = s.responses) ∨
    (∃ w rest r, s.host = .command w :: rest ∧ t.host = rest ∧ t.responses = s.responses ++ [r] ∧
      (statField r).toNat ≤ 5 ∧ r.extractLsb' 16 8 = 0#8 ∧
      (statField r ≠ 0#4 → valueField r = 0#16) ∧
      (statField r = 1#4 → (infoField r).toNat ≤ 3) ∧
      (statField r ≠ 1#4 → infoField r = 0#4))

/-- The response word's fields (R65) and the status codes (R66). -/
def Obligations.ResponseWordFields : Prop :=
  (∀ (st : Status) (info : BitVec 4) (v : Half),
    (responseWord st info v).extractLsb' 28 4 = st.code ∧ (responseWord st info v).extractLsb' 24 4 = info ∧
    (responseWord st info v).extractLsb' 16 8 = 0#8 ∧ (responseWord st info v).extractLsb' 0 16 = v) ∧
  Status.ok.code.toNat = 0 ∧ Status.parameterOutOfRange.code.toNat = 1 ∧ Status.illegalCommand.code.toNat = 2 ∧
  Status.sequenceError.code.toNat = 3 ∧ Status.indexOutOfRange.code.toNat = 4 ∧ Status.bufferFull.code.toNat = 5 ∧
  okWord 0x0BC4#16 = 0x00000BC4#32 ∧ errorWord (.parameterOutOfRange 3) = 0x13000000#32

/-! ### The CRC functions -/

/-- `crc_shift` bit by bit (R80): a logical right shift, with bits 15, 13 and 0 (the ones of `0xA001`) flipped when the low
bit was 1; and the corner cases the rule lists. -/
def Obligations.CrcShiftBits : Prop :=
  (∀ (a : Half) (i : Nat), i < 16 →
    (crcShift a).getLsbD i = (a.getLsbD (i + 1) != (a.getLsbD 0 && (i == 15 || i == 13 || i == 0)))) ∧
  crcShift 0x0000#16 = 0x0000#16 ∧ crcShift 0x0001#16 = 0xA001#16 ∧ crcShift 0x0002#16 = 0x0001#16 ∧
  crcShift 0x8000#16 = 0x4000#16 ∧ crcShift 0xFFFE#16 = 0x7FFF#16 ∧ crcShift 0xFFFF#16 = 0xDFFE#16 ∧
  crcShift 0xA001#16 = 0xF001#16

/-- `crc_byte` (R81): the byte goes into the low 8 bits only, then `crc_shift` exactly eight times; the worked trace and the
corner cases of the rule. -/
def Obligations.CrcByteIsEightShifts : Prop :=
  (∀ (a : Half) (b : Byte),
    crcByte a b = crcShift^[8] (a.extractLsb' 8 8 ++ (a.extractLsb' 0 8 ^^^ b))) ∧
  (List.range 9).map (fun n => crcShift^[n] 0xFFFE#16) =
    [0xFFFE#16, 0x7FFF#16, 0x9FFE#16, 0x4FFF#16, 0x87FE#16, 0x43FF#16, 0x81FE#16, 0x40FF#16, 0x807E#16] ∧
  crcByte 0xFFFF#16 0x01#8 = 0x807E#16 ∧ crcByte 0x0000#16 0x00#8 = 0x0000#16 ∧ crcByte 0x0000#16 0x01#8 = 0xC0C1#16 ∧
  crcByte 0x0001#16 0x00#8 = 0xC0C1#16 ∧ crcByte 0xFFFF#16 0xFF#8 = 0x00FF#16 ∧ crcByte 0xFFFF#16 0x00#8 = 0x40BF#16 ∧
  crcByte 0x8000#16 0x00#8 = 0x0080#16

/-- `compute_crc` (R82, R84): `0xFFFF` on no bytes, one `crc_byte` for each further byte, no final step; the worked trace. -/
def Obligations.ComputeCrcByteByByte : Prop :=
  computeCrc [] = 0xFFFF#16 ∧
  (∀ (data : List Byte) (b : Byte), computeCrc (data ++ [b]) = crcByte (computeCrc data) b) ∧
  (List.range 7).map (fun n => computeCrc ([0x01#8, 0x03#8, 0x00#8, 0x00#8, 0x00#8, 0x02#8].take n)) =
    [0xFFFF#16, 0x807E#16, 0x2140#16, 0xF020#16, 0xD8F1#16, 0x8419#16, 0x0BC4#16]

/-- The streaming law (R85, which the spec marks as derived from R82). -/
def Obligations.CrcFoldInPieces : Prop :=
  (∀ data : List Byte, computeCrc data = crcFold 0xFFFF#16 data) ∧
  (∀ (a : Half) (x y : List Byte), crcFold a (x ++ y) = crcFold (crcFold a x) y)

/-- The table form (R86, which the spec marks as derived from R80 and R81): for every accumulator and byte, by linearity of
`crc_shift` over XOR; the table entries the rule gives. -/
def Obligations.CrcTableForm : Prop :=
  (∀ x y : Half, crcShift (x ^^^ y) = crcShift x ^^^ crcShift y) ∧
  (∀ (a : Half) (b : Byte), crcByte a b = (a >>> 8) ^^^ crcByte 0x0000#16 ((a ^^^ b.setWidth 16).extractLsb' 0 8)) ∧
  crcByte 0x0000#16 0x00#8 = 0x0000#16 ∧ crcByte 0x0000#16 0x01#8 = 0xC0C1#16 ∧
  crcByte 0x0000#16 0x02#8 = 0xC181#16 ∧ crcByte 0x0000#16 0xFF#8 = 0x4040#16

/-- Residue and injectivity (R87, which the spec marks as derived from R81 and R86): (a) absorbing a byte is a bijection of
the accumulator; (b) a table entry is below 256 only at 0; (c) absorbing one's own low and high byte leaves zero, and no other
pair does; so a sequence followed by two bytes has CRC zero exactly when the two are its CRC, low byte first. -/
def Obligations.CrcResidueAndInjectivity : Prop :=
  (∀ b : Byte, Function.Bijective (fun a : Half => crcByte a b)) ∧
  (∀ i : Byte, (crcByte 0x0000#16 i).toNat < 256 ↔ i = 0#8) ∧
  (∀ (c : Half) (x y : Byte),
    crcByte (crcByte c x) y = 0x0000#16 ↔ x = c.extractLsb' 0 8 ∧ y = c.extractLsb' 8 8) ∧
  (∀ (body : List Byte) (x y : Byte), computeCrc (body ++ [x, y]) = 0x0000#16 ↔ y ++ x = computeCrc body)

/-! ### The CRC commands -/

/-- `CRC.INIT` completes in every state: `ACC <- 0xFFFF`, answer 0, nothing else (R90). -/
def Obligations.CrcInitSetsInitialValue : Prop :=
  ∀ s : State, exec .crcInit s = .next { s with acc := 0xFFFF#16, responses := s.responses ++ [0x00000000#32] }

/-- `CRC.UPD b` completes in every state: `ACC <- crc_byte(ACC, b)`, answer 0, nothing else (R91). -/
def Obligations.CrcUpdAbsorbsByte : Prop :=
  ∀ (b : Byte) (s : State),
    exec (.crcUpd b) s = .next { s with acc := crcByte s.acc b, responses := s.responses ++ [0x00000000#32] }

/-- `CRC.RD` completes in every state: it answers `ACC`, nothing else (R92). -/
def Obligations.CrcRdAnswersAccumulator : Prop :=
  ∀ s : State, exec .crcRd s = .next { s with responses := s.responses ++ [s.acc.setWidth 32] }

/-- The stream computes the function (R93, which the spec marks as derived from R82, R85, R90, R91, R92): from any state
within the invariants, `CRC.INIT` (or a `RESET`, which has its effect on `ACC`), then `CRC.UPD` commands with any commands of
the other families between them, then `CRC.RD`, all complete, and the last answer is `compute_crc` of the bytes absorbed. -/
def Obligations.CrcStreamComputesCrc : Prop :=
  ∀ (s : State) (first : Instr) (is : List Instr) (rest : List HostEvent),
    s.Inv → first = .crcInit ∨ first = .reset →
    .crcInit ∉ is → .crcRd ∉ is → .reset ∉ is →
    ∃ (t : State) (answers : List Word),
      runSteps (is.length + 2) { s with host := hostProgram (first :: (is ++ [.crcRd])) ++ rest } = .next t ∧
      t.host = rest ∧ answers.length = is.length + 1 ∧
      t.acc = computeCrc (is.filterMap absorbedByte) ∧
      t.responses = s.responses ++ answers ++
        [(computeCrc (is.filterMap absorbedByte)).setWidth 32]

/-! ### The frame builder -/

/-- The ranges and the lowest field first (R100, R101), on unsigned integers of any size. -/
def Obligations.CheckParamsReportsLowestBadField : Prop :=
  ∀ a f s c : Nat,
    (checkParams a f s c = .valid ↔ a ≤ 255 ∧ f ≤ 255 ∧ s ≤ 65535 ∧ 1 ≤ c ∧ c ≤ 125) ∧
    (checkParams a f s c = .outOfRange 0 ↔ 255 < a) ∧
    (checkParams a f s c = .outOfRange 1 ↔ a ≤ 255 ∧ 255 < f) ∧
    (checkParams a f s c = .outOfRange 2 ↔ a ≤ 255 ∧ f ≤ 255 ∧ 65535 < s) ∧
    (checkParams a f s c = .outOfRange 3 ↔ a ≤ 255 ∧ f ≤ 255 ∧ s ≤ 65535 ∧ (c < 1 ∨ 125 < c))

/-- Packing (R102): six bytes whose values give the parameters back with nothing clamped, the two fields high byte first, and
the fifth byte zero; the document's example. -/
def Obligations.BuildRequestPacksFields : Prop :=
  (∀ a f s c : Word, checkParams a.toNat f.toNat s.toNat c.toNat = .valid →
    ∃ b0 b1 b2 b3 b4 b5 : Byte, buildRequest a f s c = [b0, b1, b2, b3, b4, b5] ∧
      b0.toNat = a.toNat ∧ b1.toNat = f.toNat ∧ b2.toNat * 256 + b3.toNat = s.toNat ∧
      b4 = 0x00#8 ∧ b4.toNat * 256 + b5.toNat = c.toNat) ∧
  buildRequest 1#32 3#32 0x0001#32 0x0002#32 = [0x01#8, 0x03#8, 0x00#8, 0x01#8, 0x00#8, 0x02#8]

/-- `attach_crc` (R103): on a six-byte frame, eight bytes: the frame, then its CRC low byte first; the worked example. -/
def Obligations.AttachCrcAppendsLowByteFirst : Prop :=
  (∀ frame : List Byte, frame.length = 6 →
    ∃ lo hi : Byte, attachCrc frame = frame ++ [lo, hi] ∧ (attachCrc frame).length = 8 ∧
      hi.toNat * 256 + lo.toNat = (computeCrc frame).toNat) ∧
  attachCrc [0x01#8, 0x03#8, 0x00#8, 0x01#8, 0x00#8, 0x02#8] =
    [0x01#8, 0x03#8, 0x00#8, 0x01#8, 0x00#8, 0x02#8, 0x95#8, 0xCB#8]

/-- The four parameter commands complete in every state with any operand: the register takes the operand unchecked, the answer
is 0, nothing else changes (R105 to R108). -/
def Obligations.ParameterCommandsStoreOperand : Prop :=
  ∀ (v : Word) (s : State),
    exec (.parAddr v) s = .next { s with parAddr := v, responses := s.responses ++ [0x00000000#32] } ∧
    exec (.parFunc v) s = .next { s with parFunc := v, responses := s.responses ++ [0x00000000#32] } ∧
    exec (.parStart v) s = .next { s with parStart := v, responses := s.responses ++ [0x00000000#32] } ∧
    exec (.parCount v) s = .next { s with parCount := v, responses := s.responses ++ [0x00000000#32] }

/-- `BUILD` (R109): with all parameters in range it packs them, sets `TXLEN` to 6 whatever it was, and answers 0; otherwise it
answers `ParameterOutOfRange` with the lowest bad field and changes nothing. -/
def Obligations.BuildPacksOrRejects : Prop :=
  ∀ s : State, s.txBuf.wf →
    (s.parAddr.toNat ≤ 255 → s.parFunc.toNat ≤ 255 → s.parStart.toNat ≤ 65535 → 1 ≤ s.parCount.toNat →
      s.parCount.toNat ≤ 125 →
      exec .build s = .next { s with
        txBuf := [(0, s.parAddr.extractLsb' 0 8), (1, s.parFunc.extractLsb' 0 8), (2, s.parStart.extractLsb' 8 8),
          (3, s.parStart.extractLsb' 0 8), (4, s.parCount.extractLsb' 8 8), (5, s.parCount.extractLsb' 0 8)]
        txLen := 6#4
        responses := s.responses ++ [0x00000000#32] }) ∧
    (255 < s.parAddr.toNat → exec .build s = .next { s with responses := s.responses ++ [0x10000000#32] }) ∧
    (s.parAddr.toNat ≤ 255 → 255 < s.parFunc.toNat →
      exec .build s = .next { s with responses := s.responses ++ [0x11000000#32] }) ∧
    (s.parAddr.toNat ≤ 255 → s.parFunc.toNat ≤ 255 → 65535 < s.parStart.toNat →
      exec .build s = .next { s with responses := s.responses ++ [0x12000000#32] }) ∧
    (s.parAddr.toNat ≤ 255 → s.parFunc.toNat ≤ 255 → s.parStart.toNat ≤ 65535 →
      s.parCount.toNat < 1 ∨ 125 < s.parCount.toNat →
      exec .build s = .next { s with responses := s.responses ++ [0x13000000#32] })

/-- `ATTACH` (R110): with a six-byte frame it appends the frame's CRC low byte first, sets `TXLEN` to 8 and answers 0; with
any other `TXLEN` it answers `SequenceError` and changes nothing. `ACC` plays no part. -/
def Obligations.AttachAppendsCrcOrRejects : Prop :=
  (∀ (s : State) (frame : List Byte), s.txLen = 6#4 → frame.length = 6 → s.txBuf = Memory.ofBytes 0 frame →
    exec .attach s = .next { s with
      txBuf := Memory.ofBytes 0 (frame ++ [(computeCrc frame).extractLsb' 0 8, (computeCrc frame).extractLsb' 8 8])
      txLen := 8#4
      responses := s.responses ++ [0x00000000#32] }) ∧
  (∀ s : State, s.txLen ≠ 6#4 → exec .attach s = .next { s with responses := s.responses ++ [0x30000000#32] })

/-- `TX.LEN` and `RX.LEN` complete in every state and answer the length registers, nothing else (R111, R127); within the
invariants the values are 0, 6 or 8, and 0 to `RX_CAP`, which fits the bits of `RXLEN` (R23). -/
def Obligations.LengthCommandsAnswerLengths : Prop :=
  ∀ s : State,
    exec .txLen s = .next { s with responses := s.responses ++ [s.txLen.setWidth 32] } ∧
    exec .rxLen s = .next { s with responses := s.responses ++ [s.rxLen.setWidth 32] } ∧
    (s.Inv → s.txLen = 0#4 ∨ s.txLen = 6#4 ∨ s.txLen = 8#4) ∧
    (s.Inv → s.rxLen.toNat ≤ s.rxCap.toNat ∧ s.rxLen.toNat < 2 ^ rxLenWidth s.rxCap)

/-- `TX.RD b` (R112): below `TXLEN` it answers the byte at index `b`; at or above it answers `IndexOutOfRange`; either way
nothing else changes. -/
def Obligations.TxRdAnswersByteOrRejects : Prop :=
  ∀ (b : Byte) (s : State), s.Inv →
    (b.toNat < s.txLen.toNat → ∃ v : Byte, s.txBuf.read b.toNat = some v ∧
      exec (.txRd b) s = .next { s with responses := s.responses ++ [v.setWidth 32] }) ∧
    (s.txLen.toNat ≤ b.toNat → exec (.txRd b) s = .next { s with responses := s.responses ++ [0x40000000#32] })

/-- `REQUEST a f s c` as a whole (R113, which the spec marks as derived from R101 to R110), as a run of the machine from any
state within the invariants. -/
def Obligations.RequestSequenceBuildsFrame : Prop :=
  ∀ (s : State) (a f st c : Word) (rest : List HostEvent), s.Inv →
    (checkParams a.toNat f.toNat st.toNat c.toNat = .valid →
      runSteps 6
          { s with host := hostProgram [.parAddr a, .parFunc f, .parStart st, .parCount c, .build, .attach] ++ rest } =
        .next { s with
          parAddr := a, parFunc := f, parStart := st, parCount := c
          txBuf := Memory.ofBytes 0 (attachCrc (buildRequest a f st c)), txLen := 8#4, host := rest
          responses := s.responses ++ List.replicate 6 0x00000000#32 }) ∧
    (∀ i : Fin 4, checkParams a.toNat f.toNat st.toNat c.toNat = .outOfRange i →
      runSteps 5
          { s with host := hostProgram [.parAddr a, .parFunc f, .parStart st, .parCount c, .build] ++ rest } =
        .next { s with
          parAddr := a, parFunc := f, parStart := st, parCount := c, host := rest
          responses := s.responses ++ List.replicate 4 0x00000000#32 ++ [0x10000000#32 + BitVec.ofNat 32 (i.val * 2 ^ 24)] } ∧
      ∃ t : State, runSteps 6
          { s with host := hostProgram [.parAddr a, .parFunc f, .parStart st, .parCount c, .build, .attach] ++ rest } = .next t ∧
        t.responses = s.responses ++ List.replicate 4 0x00000000#32 ++
          [0x10000000#32 + BitVec.ofNat 32 (i.val * 2 ^ 24), if s.txLen = 6#4 then 0x00000000#32 else 0x30000000#32])

/-- Round trip (R114, which the spec marks as derived from R103 and R120): the frame of any valid request passes the
validator. -/
def Obligations.RequestFrameVerifies : Prop :=
  ∀ a f s c : Word, checkParams a.toNat f.toNat s.toNat c.toNat = .valid →
    verifyBytes (attachCrc (buildRequest a f s c)) = true

/-! ### The response validator -/

/-- `verify` (R120, R122): false up to two bytes, and otherwise true exactly when the CRC of the body is the last two bytes
read little-endian; the worked example, the case that shows the length test is not implied, and the shortest that verifies. -/
def Obligations.VerifyComparesBodyCrc : Prop :=
  (∀ r : List Byte, r.length ≤ 2 → verifyBytes r = false) ∧
  (∀ (body : List Byte) (x y : Byte), body ≠ [] →
    (verifyBytes (body ++ [x, y]) = true ↔ (computeCrc body).toNat = y.toNat * 256 + x.toNat)) ∧
  verifyBytes [0x01#8, 0x03#8, 0x02#8, 0x00#8, 0x0A#8, 0x38#8, 0x43#8] = true ∧
  verifyBytes [0xFF#8, 0xFF#8] = false ∧ computeCrc [] = 0xFFFF#16 ∧
  verifyBytes [0x00#8, 0xBF#8, 0x40#8] = true

/-- The residue form (R123, which the spec marks as derived from R120 and R87): above two bytes, `verify` is the CRC over all
bytes being zero; at two bytes it is not. -/
def Obligations.VerifyIsZeroResidue : Prop :=
  (∀ r : List Byte, 2 < r.length → (verifyBytes r = true ↔ computeCrc r = 0x0000#16)) ∧
  computeCrc [0xFF#8, 0xFF#8] = 0x0000#16 ∧ verifyBytes [0xFF#8, 0xFF#8] = false

/-- Single bit flips (R124, the exact form, which the spec gives from general knowledge and asks a model to prove): a verified
frame with any one bit of any byte flipped, in the body or in the CRC, does not verify. -/
def Obligations.SingleBitFlipFailsVerify : Prop :=
  ∀ (r : List Byte) (i j : Nat), verifyBytes r = true → i < r.length → j < 8 →
    verifyBytes (r.set i (r.getD i 0#8 ^^^ (1#8 <<< j))) = false

/-- `payload_of` (R121, host-side): none when the frame does not verify; otherwise bytes 3 to `n-3`, empty for `n` of 3, 4, 5.
-/
def Obligations.PayloadIsMiddleOfVerifiedFrame : Prop :=
  (∀ r : List Byte, verifyBytes r = false → payloadOf r = none) ∧
  (∀ h0 h1 h2 x y : Byte, ∀ p : List Byte, verifyBytes ([h0, h1, h2] ++ p ++ [x, y]) = true →
    payloadOf ([h0, h1, h2] ++ p ++ [x, y]) = some p) ∧
  (∀ r : List Byte, verifyBytes r = true → r.length = 3 ∨ r.length = 4 → payloadOf r = some []) ∧
  payloadOf [0x01#8, 0x03#8, 0x02#8, 0x00#8, 0x0A#8, 0x38#8, 0x43#8] = some [0x00#8, 0x0A#8]

/-- `RX.CLR` completes in every state: `RXLEN <- 0` (no byte of the RX space is valid any more), answer 0, nothing else
(R125). -/
def Obligations.RxClrEmptiesBuffer : Prop :=
  ∀ s : State, exec .rxClr s = .next { s with rxBuf := [], rxLen := 0#16, responses := s.responses ++ [0x00000000#32] }

/-- `RX.PUSH b` (R126): below `RX_CAP` the byte goes to index `RXLEN`, `RXLEN` grows by one, the answer is 0; at `RX_CAP` the
answer is `BufferFull` and nothing changes. -/
def Obligations.RxPushAppendsOrRejects : Prop :=
  ∀ (b : Byte) (s : State),
    (∀ bytes : List Byte, s.rxBuf = Memory.ofBytes 0 bytes → bytes.length = s.rxLen.toNat →
      s.rxLen.toNat < s.rxCap.toNat → exec (.rxPush b) s = .next { s with
        rxBuf := Memory.ofBytes 0 (bytes ++ [b])
        rxLen := BitVec.ofNat 16 (s.rxLen.toNat + 1)
        responses := s.responses ++ [0x00000000#32] }) ∧
    (s.rxLen = s.rxCap → exec (.rxPush b) s = .next { s with responses := s.responses ++ [0x50000000#32] })

/-- Filling the response buffer (R8, R42, R126, R172), as a run of a block with any `RX_CAP` from 0 to 65535 after its reset: the
first `RX_CAP` pushes succeed and are kept in order, every further push is `BufferFull` and changes nothing; with capacity 0
every push is. -/
def Obligations.RxPushForEveryCapacity : Prop :=
  ∀ (cap : BitVec 16) (r : List Byte) (rest : List HostEvent),
    runSteps r.length { State.resetFor cap with host := hostProgram (r.map .rxPush) ++ rest } =
      .next { State.resetFor cap with
        rxBuf := Memory.ofBytes 0 (r.take cap.toNat), rxLen := BitVec.ofNat 16 (min r.length cap.toNat), host := rest
        responses := List.replicate (min r.length cap.toNat) 0x00000000#32 ++
          List.replicate (r.length - cap.toNat) 0x50000000#32 }

/-- `VERIFY` (R128): it answers 1 when the bytes in the buffer verify and 0 when they do not, never an error, and changes
nothing; `ACC` plays no part. -/
def Obligations.VerifyAnswersValidity : Prop :=
  ∀ (s : State) (bytes : List Byte), s.rxBuf = Memory.ofBytes 0 bytes → bytes.length = s.rxLen.toNat →
    s.rxLen.toNat ≤ s.rxCap.toNat →
    (verifyBytes bytes = true → exec .verify s = .next { s with responses := s.responses ++ [0x00000001#32] }) ∧
    (verifyBytes bytes = false → exec .verify s = .next { s with responses := s.responses ++ [0x00000000#32] })

/-- `CHECK r` as a whole (R129, which the spec marks as derived from R120 to R128), as a run of the machine from any state and
with any `RX_CAP`: the first `RX_CAP` bytes are kept, the pushes beyond answer `BufferFull`, and the last answer is `verify` of
what was kept. -/
def Obligations.CheckSequenceJudgesResponse : Prop :=
  ∀ (s : State) (r : List Byte) (rest : List HostEvent),
    runSteps (r.length + 2)
        { s with host := hostProgram (.rxClr :: (r.map .rxPush ++ [.verify])) ++ rest } =
      .next { s with
        rxBuf := Memory.ofBytes 0 (r.take s.rxCap.toNat), rxLen := BitVec.ofNat 16 (min r.length s.rxCap.toNat), host := rest
        responses := s.responses ++ [0x00000000#32] ++ List.replicate (min r.length s.rxCap.toNat) 0x00000000#32 ++
          List.replicate (r.length - s.rxCap.toNat) 0x50000000#32 ++
          [if verifyBytes (r.take s.rxCap.toNat) = true then 0x00000001#32 else 0x00000000#32] }

/-- The document's end-to-end scenario (R130, which the spec marks as derived from R120, R121, R129): the CRC of the five
bytes, the answer of `CHECK`, and the host's payload. -/
def Obligations.EndToEndScenario : Prop :=
  computeCrc [0x01#8, 0x03#8, 0x02#8, 0x00#8, 0x0A#8] = 0x4338#16 ∧
  (∃ t, runSteps 9 { State.reset with
      host := hostProgram (Pseudo.check [0x01#8, 0x03#8, 0x02#8, 0x00#8, 0x0A#8, 0x38#8, 0x43#8]).expand } = .next t ∧
    t.responses.getLast? = some 0x00000001#32 ∧
    t.rxBuf.bytes = [0x01#8, 0x03#8, 0x02#8, 0x00#8, 0x0A#8, 0x38#8, 0x43#8]) ∧
  payloadOf [0x01#8, 0x03#8, 0x02#8, 0x00#8, 0x0A#8, 0x38#8, 0x43#8] = some [0x00#8, 0x0A#8]

/-! ### The system command -/

/-- `RESET` completes in every state: every piece of the block's state takes its reset value, answer 0 (R140). -/
def Obligations.ResetCommandRestoresResetState : Prop :=
  ∀ s : State, exec .reset s = .next { State.resetFor s.rxCap with host := s.host, responses := s.responses ++ [0x00000000#32] }

/-! ### Errors and whole-machine rules -/

/-- An error is a result, not a trap (R150): whatever word the host sends, a response whose `STAT` is not `OK` leaves the
whole state as it was but for the response word delivered, and its `VALUE` is 0. -/
def Obligations.ErrorsChangeNothing : Prop :=
  ∀ (w : Command) (s t : State), runCommand w s = .next t →
    ∃ r : Word, t.responses = s.responses ++ [r] ∧
      (statField r ≠ 0#4 → t = { s with responses := s.responses ++ [r] } ∧ valueField r = 0#16 ∧ ∃ e : Error, r = errorWord e)

/-- Which command raises which error, and when (R151, R153 to R155). -/
def Obligations.ErrorsComeFromTheirCommands : Prop :=
  ∀ (i : Instr) (s t : State) (r : Word), exec i s = .next t → t.responses = s.responses ++ [r] →
    (statField r = 1#4 ↔ i = .build ∧
      ∃ k : Fin 4, checkParams s.parAddr.toNat s.parFunc.toNat s.parStart.toNat s.parCount.toNat = .outOfRange k) ∧
    (∀ k : Fin 4, i = .build →
      checkParams s.parAddr.toNat s.parFunc.toNat s.parStart.toNat s.parCount.toNat = .outOfRange k →
      infoField r = BitVec.ofNat 4 k.val) ∧
    (statField r = 3#4 ↔ i = .attach ∧ s.txLen ≠ 6#4) ∧
    (statField r = 4#4 ↔ ∃ b : Byte, i = .txRd b ∧ s.txLen.toNat ≤ b.toNat) ∧
    (statField r = 5#4 ↔ ∃ b : Byte, i = .rxPush b ∧ s.rxLen = s.rxCap) ∧
    statField r ≠ 2#4 ∧ (statField r ≠ 1#4 → infoField r = 0#4)

/-- Reads change nothing, and the writes that are not accumulating are idempotent; a second `ATTACH` is a `SequenceError`
(R50, which the spec marks as derived from the command rules). -/
def Obligations.ReadsAreFreeAndWritesIdempotent : Prop :=
  (∀ (i : Instr) (s t : State), (∃ b, i = .txRd b) ∨ i ∈ [Instr.txLen, .rxLen, .crcRd, .verify] → exec i s = .next t →
    ∃ r, t = { s with responses := s.responses ++ [r] } ∧ exec i t = .next { t with responses := t.responses ++ [r] }) ∧
  (∀ (i : Instr) (s t : State), s.txBuf.wf →
    i ∈ [Instr.crcInit, .rxClr, .build, .reset] ∨ (∃ v, i ∈ [Instr.parAddr v, .parFunc v, .parStart v, .parCount v]) →
    exec i s = .next t → ∃ r, exec i t = .next { t with responses := t.responses ++ [r] }) ∧
  (∀ s t : State, s.txLen = 6#4 → exec .attach s = .next t →
    exec .attach t = .next { t with responses := t.responses ++ [0x30000000#32] })

/-- `ACC` is written by `CRC.INIT`, `CRC.UPD` and reset only, and read by `CRC.UPD` and `CRC.RD` only (R20): any other command
leaves it, and does the same whatever it holds. -/
def Obligations.AccumulatorIsPrivateToCrcCommands : Prop :=
  ∀ (i : Instr) (s t : State) (x : Half), (∀ b, i ≠ .crcUpd b) → i ∉ [Instr.crcInit, .crcRd, .reset] → exec i s = .next t →
    t.acc = s.acc ∧ exec i { s with acc := x } = .next { t with acc := x }

/-- The parameter registers (R21): each is written only by its own command and by reset, and read only by `BUILD`: any other
command leaves them, and does the same whatever they hold. -/
def Obligations.ParametersAreReadByBuildOnly : Prop :=
  (∀ (i : Instr) (s t : State), i ≠ .reset → exec i s = .next t →
    ((∀ v, i ≠ .parAddr v) → t.par 0 = s.par 0) ∧ ((∀ v, i ≠ .parFunc v) → t.par 1 = s.par 1) ∧
    ((∀ v, i ≠ .parStart v) → t.par 2 = s.par 2) ∧ ((∀ v, i ≠ .parCount v) → t.par 3 = s.par 3)) ∧
  (∀ (i : Instr) (s t : State) (a f st c : Word),
    i ∉ [Instr.build, .reset] → (∀ v, i ∉ [Instr.parAddr v, .parFunc v, .parStart v, .parCount v]) → exec i s = .next t →
    exec i { s with parAddr := a, parFunc := f, parStart := st, parCount := c } =
      .next { t with parAddr := a, parFunc := f, parStart := st, parCount := c })

/-- Bytes at or above a length register are not observable (R35, which the spec marks as derived from R110, R112, R128): two
states that differ only in such bytes get the same answer from every command. -/
def Obligations.BytesBeyondLengthAreUnobservable : Prop :=
  ∀ (i : Instr) (s t : State) (m m' : Memory) (r : Word),
    (∀ a, a < s.txLen.toNat → m.read a = s.txBuf.read a) → (∀ a, a < s.rxLen.toNat → m'.read a = s.rxBuf.read a) →
    exec i s = .next t → t.responses = s.responses ++ [r] →
    ∃ t', exec i { s with txBuf := m, rxBuf := m' } = .next t' ∧ t'.responses = s.responses ++ [r]

/-- A command neither reads what the host will send later nor what was answered before (R29, R54). -/
def Obligations.CommandsDoNotReadThePorts : Prop :=
  ∀ (i : Instr) (s t : State), exec i s = .next t →
    ∃ r : Word, t.host = s.host ∧ t.responses = s.responses ++ [r] ∧
      ∀ (h : List HostEvent) (past : List Word),
        exec i { s with host := h, responses := past } = .next { t with host := h, responses := past ++ [r] }

/-! ### Invariants -/

/-- The reset state meets the invariants of R26, with the default capacity and with any other. -/
def Obligations.ResetStateMeetsInvariants : Prop := State.reset.Inv ∧ ∀ cap : BitVec 16, (State.resetFor cap).Inv

/-- Every step keeps the invariants of R26, which the spec marks as derived from the command rules: `TXLEN` is 0, 6 or 8; a
frame is a packed valid request, and at 8 its CRC follows; `RXLEN <= RX_CAP`; each buffer holds exactly the bytes below
its length; and `RX_CAP` is no state of the block: no step writes it (R29). -/
def Obligations.StepKeepsInvariants : Prop :=
  ∀ s t : State, s.Inv → step s = .next t → t.Inv ∧ t.rxCap = s.rxCap

/-- Within the invariants every step answers a next state: no command, legal or not, in any such state, stops the machine
(R161, R166, R180). -/
def Obligations.StepNeverStops : Prop :=
  ∀ s : State, s.Inv → ∃ t : State, step s = .next t

/-- Every run from the reset state, whatever the host sends, however long and with any `RX_CAP`, goes on and keeps the invariants (R26, R172,
R181). -/
def Obligations.EveryRunFromResetIsSafe : Prop :=
  ∀ (cap : BitVec 16) (events : List HostEvent) (n : Nat),
    SafeOutcome (runSteps n { State.resetFor cap with host := events })

/-- Every step keeps both buffers in canonical form, from any state. -/
def Obligations.StepKeepsCanonicalMemory : Prop :=
  ∀ s t : State, s.txBuf.wf → s.rxBuf.wf → step s = .next t → t.txBuf.wf ∧ t.rxBuf.wf

/-! ### Frames -/

/-- Frame of every command that stores no byte: `CRC.INIT`, `CRC.UPD`, `CRC.RD`, the four `PAR` commands, `TX.LEN`, `TX.RD`,
`RX.LEN`, `VERIFY`: every byte of both spaces reads as before and both lengths stay; `ACC` stays but for `CRC.INIT` and
`CRC.UPD`; a parameter register stays but for its own command. -/
def Obligations.FrameOfCommandsThatStoreNoByte : Prop :=
  ∀ (i : Instr) (s t : State), i ∉ [Instr.build, .attach, .rxClr, .reset] → (∀ b, i ≠ .rxPush b) → exec i s = .next t →
    (∀ a, t.txBuf.read a = s.txBuf.read a) ∧ (∀ a, t.rxBuf.read a = s.rxBuf.read a) ∧
    t.txLen = s.txLen ∧ t.rxLen = s.rxLen ∧ t.rxCap = s.rxCap ∧ t.host = s.host ∧
    (i ≠ .crcInit → (∀ b, i ≠ .crcUpd b) → t.acc = s.acc) ∧
    ((∀ v, i ≠ .parAddr v) → t.parAddr = s.parAddr) ∧ ((∀ v, i ≠ .parFunc v) → t.parFunc = s.parFunc) ∧
    ((∀ v, i ≠ .parStart v) → t.parStart = s.parStart) ∧ ((∀ v, i ≠ .parCount v) → t.parCount = s.parCount)

/-- Frame of `BUILD` and `ATTACH`: every register but `TXLEN` and every byte of the RX space stay. A `BUILD` that fails leaves
the TX space; one that succeeds stores at indices 0 to 5, after which no other index is valid (R109). An `ATTACH` that fails
leaves the TX space; one that succeeds stores at indices 6 and 7 and leaves indices 0 to 5; the TX space has no index above.
-/
def Obligations.FrameOfBuildAndAttach : Prop :=
  ∀ (i : Instr) (s t : State), i = .build ∨ i = .attach → exec i s = .next t →
    t.acc = s.acc ∧ t.parAddr = s.parAddr ∧ t.parFunc = s.parFunc ∧ t.parStart = s.parStart ∧ t.parCount = s.parCount ∧
    t.rxLen = s.rxLen ∧ t.rxCap = s.rxCap ∧ t.host = s.host ∧ (∀ a, t.rxBuf.read a = s.rxBuf.read a) ∧
    (i = .build → checkParams s.parAddr.toNat s.parFunc.toNat s.parStart.toNat s.parCount.toNat ≠ .valid →
      t.txLen = s.txLen ∧ ∀ a, t.txBuf.read a = s.txBuf.read a) ∧
    (i = .build → checkParams s.parAddr.toNat s.parFunc.toNat s.parStart.toNat s.parCount.toNat = .valid →
      t.txLen = 6#4 ∧ ∀ a, t.txBuf.read a = (buildRequest s.parAddr s.parFunc s.parStart s.parCount)[a]?) ∧
    (i = .attach → s.txLen ≠ 6#4 → t.txLen = s.txLen ∧ ∀ a, t.txBuf.read a = s.txBuf.read a) ∧
    (i = .attach → s.txLen = 6#4 → t.txLen = 8#4 ∧ (∀ a, a < 6 → t.txBuf.read a = s.txBuf.read a) ∧
      (∀ a, 8 ≤ a → t.txBuf.read a = none))

/-- Frame of `RX.PUSH`: the byte goes to index `RXLEN`; every other index of the RX space and every byte of the TX space reads
as before; every register but `RXLEN` stays. A push answered `BufferFull` leaves every byte. -/
def Obligations.FrameOfRxPush : Prop :=
  ∀ (b : Byte) (s t : State), s.RxInv → exec (.rxPush b) s = .next t →
    t.acc = s.acc ∧ t.parAddr = s.parAddr ∧ t.parFunc = s.parFunc ∧ t.parStart = s.parStart ∧ t.parCount = s.parCount ∧
    t.txLen = s.txLen ∧ t.rxCap = s.rxCap ∧ t.host = s.host ∧ (∀ a, t.txBuf.read a = s.txBuf.read a) ∧
    (∀ a, a ≠ s.rxLen.toNat → t.rxBuf.read a = s.rxBuf.read a) ∧
    (s.rxLen.toNat < s.rxCap.toNat → t.rxBuf.read s.rxLen.toNat = some b) ∧
    (s.rxLen = s.rxCap → ∀ a, t.rxBuf.read a = s.rxBuf.read a)

/-- Frame of `RX.CLR` and `RESET`: `RX.CLR` leaves every register but `RXLEN` and every byte of the TX space; after it no byte
of the RX space is valid. After `RESET` no byte of either space is (R34); both leave what the host has still to send. -/
def Obligations.FrameOfRxClrAndReset : Prop :=
  (∀ s t : State, exec .rxClr s = .next t →
    t.acc = s.acc ∧ t.parAddr = s.parAddr ∧ t.parFunc = s.parFunc ∧ t.parStart = s.parStart ∧ t.parCount = s.parCount ∧
    t.txLen = s.txLen ∧ t.rxCap = s.rxCap ∧ t.host = s.host ∧ (∀ a, t.txBuf.read a = s.txBuf.read a) ∧ (∀ a, t.rxBuf.read a = none)) ∧
  (∀ s t : State, exec .reset s = .next t →
    t.rxCap = s.rxCap ∧ t.host = s.host ∧ (∀ a, t.txBuf.read a = none) ∧ (∀ a, t.rxBuf.read a = none))

/-! ### The accumulator over any run of events -/

/-- Every step keeps `ACC` the CRC of the bytes absorbed since the last `CRC.INIT` or reset (R20, R30, R90, R91; R93, which the
spec marks as derived, has it for one stream): whatever command, illegal word or reset event comes next, in any state. -/
def Obligations.AccumulatorIsCrcOfBytesSinceInit : Prop :=
  ∀ (s t : State) (data : List Byte), s.acc = computeCrc data → step s = .next t →
    t.acc = computeCrc (bytesSinceInit data s.host)
end

