-- ==== Sys2Proof/Laws/Width.lean ====
section
/-! SUPPORT. The width of `RXLEN`: it holds every value up to `RX_CAP`, and cuts none of them. -/

namespace Sys2Proof.Machine

/-- The width at the default capacity (R23). -/
theorem rxLenWidth_default : rxLenWidth Config.rxCapDefault = 7 := by decide

/-- The register holds every value 0 to `RX_CAP` (R23). -/
theorem rxCap_lt (cap : BitVec 16) : cap.toNat < 2 ^ rxLenWidth cap := Nat.lt_log2_self

/-- No capacity needs more than 16 bits (R8, R67). -/
theorem rxLenWidth_le (cap : BitVec 16) : rxLenWidth cap ≤ 16 := by
  rcases Nat.eq_zero_or_pos cap.toNat with h | h
  · simp [rxLenWidth, h]
  · exact (Nat.log2_lt (by omega)).mpr cap.isLt

/-- The register keeps a value no larger than `RX_CAP` as it is: nothing the block writes to it is cut (R23, R126). -/
theorem rxLenBits_of_le {cap n : BitVec 16} (h : n.toNat ≤ cap.toNat) : rxLenBits cap n = n := by
  apply BitVec.eq_of_toNat_eq
  rw [rxLenBits, BitVec.toNat_setWidth, BitVec.toNat_setWidth,
    Nat.mod_eq_of_lt (Nat.lt_of_le_of_lt h (rxCap_lt cap)), Nat.mod_eq_of_lt n.isLt]

/-- The register never holds more than its bits do (R23). -/
theorem rxLenBits_lt (cap n : BitVec 16) : (rxLenBits cap n).toNat < 2 ^ rxLenWidth cap := by
  rw [rxLenBits, BitVec.toNat_setWidth, BitVec.toNat_setWidth]
  exact Nat.lt_of_le_of_lt (Nat.mod_le _ _) (Nat.mod_lt _ (Nat.two_pow_pos _))

@[simp] theorem rxLenBits_zero (cap : BitVec 16) : rxLenBits cap 0#16 = 0#16 :=
  rxLenBits_of_le (Nat.zero_le _)

end Sys2Proof.Machine
end

