-- ==== Sys2Proof/Laws/State.lean ====
section
/-! SUPPORT. One lemma per field per update of `State`, so that no later proof unfolds a record update. -/

namespace Sys2Proof.Machine

@[simp] theorem State.setAcc_acc (s : State) (v : Half) : (s.setAcc v).acc = v := rfl
@[simp] theorem State.setAcc_parAddr (s : State) (v : Half) : (s.setAcc v).parAddr = s.parAddr := rfl
@[simp] theorem State.setAcc_parFunc (s : State) (v : Half) : (s.setAcc v).parFunc = s.parFunc := rfl
@[simp] theorem State.setAcc_parStart (s : State) (v : Half) : (s.setAcc v).parStart = s.parStart := rfl
@[simp] theorem State.setAcc_parCount (s : State) (v : Half) : (s.setAcc v).parCount = s.parCount := rfl
@[simp] theorem State.setAcc_txBuf (s : State) (v : Half) : (s.setAcc v).txBuf = s.txBuf := rfl
@[simp] theorem State.setAcc_txLen (s : State) (v : Half) : (s.setAcc v).txLen = s.txLen := rfl
@[simp] theorem State.setAcc_rxBuf (s : State) (v : Half) : (s.setAcc v).rxBuf = s.rxBuf := rfl
@[simp] theorem State.setAcc_rxLen (s : State) (v : Half) : (s.setAcc v).rxLen = s.rxLen := rfl
@[simp] theorem State.setAcc_rxCap (s : State) (v : Half) : (s.setAcc v).rxCap = s.rxCap := rfl
@[simp] theorem State.setAcc_host (s : State) (v : Half) : (s.setAcc v).host = s.host := rfl
@[simp] theorem State.setAcc_responses (s : State) (v : Half) : (s.setAcc v).responses = s.responses := rfl

@[simp] theorem State.setPar_zero_acc (s : State) (v : Word) : (s.setPar 0 v).acc = s.acc := rfl
@[simp] theorem State.setPar_zero_parAddr (s : State) (v : Word) : (s.setPar 0 v).parAddr = v := rfl
@[simp] theorem State.setPar_zero_parFunc (s : State) (v : Word) : (s.setPar 0 v).parFunc = s.parFunc := rfl
@[simp] theorem State.setPar_zero_parStart (s : State) (v : Word) : (s.setPar 0 v).parStart = s.parStart := rfl
@[simp] theorem State.setPar_zero_parCount (s : State) (v : Word) : (s.setPar 0 v).parCount = s.parCount := rfl
@[simp] theorem State.setPar_zero_txBuf (s : State) (v : Word) : (s.setPar 0 v).txBuf = s.txBuf := rfl
@[simp] theorem State.setPar_zero_txLen (s : State) (v : Word) : (s.setPar 0 v).txLen = s.txLen := rfl
@[simp] theorem State.setPar_zero_rxBuf (s : State) (v : Word) : (s.setPar 0 v).rxBuf = s.rxBuf := rfl
@[simp] theorem State.setPar_zero_rxLen (s : State) (v : Word) : (s.setPar 0 v).rxLen = s.rxLen := rfl
@[simp] theorem State.setPar_zero_rxCap (s : State) (v : Word) : (s.setPar 0 v).rxCap = s.rxCap := rfl
@[simp] theorem State.setPar_zero_host (s : State) (v : Word) : (s.setPar 0 v).host = s.host := rfl
@[simp] theorem State.setPar_zero_responses (s : State) (v : Word) : (s.setPar 0 v).responses = s.responses := rfl

@[simp] theorem State.setPar_one_acc (s : State) (v : Word) : (s.setPar 1 v).acc = s.acc := rfl
@[simp] theorem State.setPar_one_parAddr (s : State) (v : Word) : (s.setPar 1 v).parAddr = s.parAddr := rfl
@[simp] theorem State.setPar_one_parFunc (s : State) (v : Word) : (s.setPar 1 v).parFunc = v := rfl
@[simp] theorem State.setPar_one_parStart (s : State) (v : Word) : (s.setPar 1 v).parStart = s.parStart := rfl
@[simp] theorem State.setPar_one_parCount (s : State) (v : Word) : (s.setPar 1 v).parCount = s.parCount := rfl
@[simp] theorem State.setPar_one_txBuf (s : State) (v : Word) : (s.setPar 1 v).txBuf = s.txBuf := rfl
@[simp] theorem State.setPar_one_txLen (s : State) (v : Word) : (s.setPar 1 v).txLen = s.txLen := rfl
@[simp] theorem State.setPar_one_rxBuf (s : State) (v : Word) : (s.setPar 1 v).rxBuf = s.rxBuf := rfl
@[simp] theorem State.setPar_one_rxLen (s : State) (v : Word) : (s.setPar 1 v).rxLen = s.rxLen := rfl
@[simp] theorem State.setPar_one_rxCap (s : State) (v : Word) : (s.setPar 1 v).rxCap = s.rxCap := rfl
@[simp] theorem State.setPar_one_host (s : State) (v : Word) : (s.setPar 1 v).host = s.host := rfl
@[simp] theorem State.setPar_one_responses (s : State) (v : Word) : (s.setPar 1 v).responses = s.responses := rfl

@[simp] theorem State.setPar_two_acc (s : State) (v : Word) : (s.setPar 2 v).acc = s.acc := rfl
@[simp] theorem State.setPar_two_parAddr (s : State) (v : Word) : (s.setPar 2 v).parAddr = s.parAddr := rfl
@[simp] theorem State.setPar_two_parFunc (s : State) (v : Word) : (s.setPar 2 v).parFunc = s.parFunc := rfl
@[simp] theorem State.setPar_two_parStart (s : State) (v : Word) : (s.setPar 2 v).parStart = v := rfl
@[simp] theorem State.setPar_two_parCount (s : State) (v : Word) : (s.setPar 2 v).parCount = s.parCount := rfl
@[simp] theorem State.setPar_two_txBuf (s : State) (v : Word) : (s.setPar 2 v).txBuf = s.txBuf := rfl
@[simp] theorem State.setPar_two_txLen (s : State) (v : Word) : (s.setPar 2 v).txLen = s.txLen := rfl
@[simp] theorem State.setPar_two_rxBuf (s : State) (v : Word) : (s.setPar 2 v).rxBuf = s.rxBuf := rfl
@[simp] theorem State.setPar_two_rxLen (s : State) (v : Word) : (s.setPar 2 v).rxLen = s.rxLen := rfl
@[simp] theorem State.setPar_two_rxCap (s : State) (v : Word) : (s.setPar 2 v).rxCap = s.rxCap := rfl
@[simp] theorem State.setPar_two_host (s : State) (v : Word) : (s.setPar 2 v).host = s.host := rfl
@[simp] theorem State.setPar_two_responses (s : State) (v : Word) : (s.setPar 2 v).responses = s.responses := rfl

@[simp] theorem State.setPar_three_acc (s : State) (v : Word) : (s.setPar 3 v).acc = s.acc := rfl
@[simp] theorem State.setPar_three_parAddr (s : State) (v : Word) : (s.setPar 3 v).parAddr = s.parAddr := rfl
@[simp] theorem State.setPar_three_parFunc (s : State) (v : Word) : (s.setPar 3 v).parFunc = s.parFunc := rfl
@[simp] theorem State.setPar_three_parStart (s : State) (v : Word) : (s.setPar 3 v).parStart = s.parStart := rfl
@[simp] theorem State.setPar_three_parCount (s : State) (v : Word) : (s.setPar 3 v).parCount = v := rfl
@[simp] theorem State.setPar_three_txBuf (s : State) (v : Word) : (s.setPar 3 v).txBuf = s.txBuf := rfl
@[simp] theorem State.setPar_three_txLen (s : State) (v : Word) : (s.setPar 3 v).txLen = s.txLen := rfl
@[simp] theorem State.setPar_three_rxBuf (s : State) (v : Word) : (s.setPar 3 v).rxBuf = s.rxBuf := rfl
@[simp] theorem State.setPar_three_rxLen (s : State) (v : Word) : (s.setPar 3 v).rxLen = s.rxLen := rfl
@[simp] theorem State.setPar_three_rxCap (s : State) (v : Word) : (s.setPar 3 v).rxCap = s.rxCap := rfl
@[simp] theorem State.setPar_three_host (s : State) (v : Word) : (s.setPar 3 v).host = s.host := rfl
@[simp] theorem State.setPar_three_responses (s : State) (v : Word) : (s.setPar 3 v).responses = s.responses := rfl

@[simp] theorem State.par_zero (s : State) : s.par 0 = s.parAddr := rfl
@[simp] theorem State.par_one (s : State) : s.par 1 = s.parFunc := rfl
@[simp] theorem State.par_two (s : State) : s.par 2 = s.parStart := rfl
@[simp] theorem State.par_three (s : State) : s.par 3 = s.parCount := rfl

@[simp] theorem State.setTxLen_acc (s : State) (n : BitVec 4) : (s.setTxLen n).acc = s.acc := rfl
@[simp] theorem State.setTxLen_parAddr (s : State) (n : BitVec 4) : (s.setTxLen n).parAddr = s.parAddr := rfl
@[simp] theorem State.setTxLen_parFunc (s : State) (n : BitVec 4) : (s.setTxLen n).parFunc = s.parFunc := rfl
@[simp] theorem State.setTxLen_parStart (s : State) (n : BitVec 4) : (s.setTxLen n).parStart = s.parStart := rfl
@[simp] theorem State.setTxLen_parCount (s : State) (n : BitVec 4) : (s.setTxLen n).parCount = s.parCount := rfl
@[simp] theorem State.setTxLen_txBuf (s : State) (n : BitVec 4) : (s.setTxLen n).txBuf = s.txBuf.truncate n.toNat := rfl
@[simp] theorem State.setTxLen_txLen (s : State) (n : BitVec 4) : (s.setTxLen n).txLen = n := rfl
@[simp] theorem State.setTxLen_rxBuf (s : State) (n : BitVec 4) : (s.setTxLen n).rxBuf = s.rxBuf := rfl
@[simp] theorem State.setTxLen_rxLen (s : State) (n : BitVec 4) : (s.setTxLen n).rxLen = s.rxLen := rfl
@[simp] theorem State.setTxLen_rxCap (s : State) (n : BitVec 4) : (s.setTxLen n).rxCap = s.rxCap := rfl
@[simp] theorem State.setTxLen_host (s : State) (n : BitVec 4) : (s.setTxLen n).host = s.host := rfl
@[simp] theorem State.setTxLen_responses (s : State) (n : BitVec 4) : (s.setTxLen n).responses = s.responses := rfl

@[simp] theorem State.setRxLen_acc (s : State) (n : BitVec 16) : (s.setRxLen n).acc = s.acc := rfl
@[simp] theorem State.setRxLen_parAddr (s : State) (n : BitVec 16) : (s.setRxLen n).parAddr = s.parAddr := rfl
@[simp] theorem State.setRxLen_parFunc (s : State) (n : BitVec 16) : (s.setRxLen n).parFunc = s.parFunc := rfl
@[simp] theorem State.setRxLen_parStart (s : State) (n : BitVec 16) : (s.setRxLen n).parStart = s.parStart := rfl
@[simp] theorem State.setRxLen_parCount (s : State) (n : BitVec 16) : (s.setRxLen n).parCount = s.parCount := rfl
@[simp] theorem State.setRxLen_txBuf (s : State) (n : BitVec 16) : (s.setRxLen n).txBuf = s.txBuf := rfl
@[simp] theorem State.setRxLen_txLen (s : State) (n : BitVec 16) : (s.setRxLen n).txLen = s.txLen := rfl
@[simp] theorem State.setRxLen_rxBuf (s : State) (n : BitVec 16) : (s.setRxLen n).rxBuf = s.rxBuf.truncate (rxLenBits s.rxCap n).toNat := rfl
@[simp] theorem State.setRxLen_rxLen (s : State) (n : BitVec 16) : (s.setRxLen n).rxLen = rxLenBits s.rxCap n := rfl
@[simp] theorem State.setRxLen_rxCap (s : State) (n : BitVec 16) : (s.setRxLen n).rxCap = s.rxCap := rfl
@[simp] theorem State.setRxLen_host (s : State) (n : BitVec 16) : (s.setRxLen n).host = s.host := rfl
@[simp] theorem State.setRxLen_responses (s : State) (n : BitVec 16) : (s.setRxLen n).responses = s.responses := rfl

@[simp] theorem State.setBuf_tx_acc (s : State) (m : Memory) : (s.setBuf .tx m).acc = s.acc := rfl
@[simp] theorem State.setBuf_tx_parAddr (s : State) (m : Memory) : (s.setBuf .tx m).parAddr = s.parAddr := rfl
@[simp] theorem State.setBuf_tx_parFunc (s : State) (m : Memory) : (s.setBuf .tx m).parFunc = s.parFunc := rfl
@[simp] theorem State.setBuf_tx_parStart (s : State) (m : Memory) : (s.setBuf .tx m).parStart = s.parStart := rfl
@[simp] theorem State.setBuf_tx_parCount (s : State) (m : Memory) : (s.setBuf .tx m).parCount = s.parCount := rfl
@[simp] theorem State.setBuf_tx_txBuf (s : State) (m : Memory) : (s.setBuf .tx m).txBuf = m := rfl
@[simp] theorem State.setBuf_tx_txLen (s : State) (m : Memory) : (s.setBuf .tx m).txLen = s.txLen := rfl
@[simp] theorem State.setBuf_tx_rxBuf (s : State) (m : Memory) : (s.setBuf .tx m).rxBuf = s.rxBuf := rfl
@[simp] theorem State.setBuf_tx_rxLen (s : State) (m : Memory) : (s.setBuf .tx m).rxLen = s.rxLen := rfl
@[simp] theorem State.setBuf_tx_rxCap (s : State) (m : Memory) : (s.setBuf .tx m).rxCap = s.rxCap := rfl
@[simp] theorem State.setBuf_tx_host (s : State) (m : Memory) : (s.setBuf .tx m).host = s.host := rfl
@[simp] theorem State.setBuf_tx_responses (s : State) (m : Memory) : (s.setBuf .tx m).responses = s.responses := rfl

@[simp] theorem State.setBuf_rx_acc (s : State) (m : Memory) : (s.setBuf .rx m).acc = s.acc := rfl
@[simp] theorem State.setBuf_rx_parAddr (s : State) (m : Memory) : (s.setBuf .rx m).parAddr = s.parAddr := rfl
@[simp] theorem State.setBuf_rx_parFunc (s : State) (m : Memory) : (s.setBuf .rx m).parFunc = s.parFunc := rfl
@[simp] theorem State.setBuf_rx_parStart (s : State) (m : Memory) : (s.setBuf .rx m).parStart = s.parStart := rfl
@[simp] theorem State.setBuf_rx_parCount (s : State) (m : Memory) : (s.setBuf .rx m).parCount = s.parCount := rfl
@[simp] theorem State.setBuf_rx_txBuf (s : State) (m : Memory) : (s.setBuf .rx m).txBuf = s.txBuf := rfl
@[simp] theorem State.setBuf_rx_txLen (s : State) (m : Memory) : (s.setBuf .rx m).txLen = s.txLen := rfl
@[simp] theorem State.setBuf_rx_rxBuf (s : State) (m : Memory) : (s.setBuf .rx m).rxBuf = m := rfl
@[simp] theorem State.setBuf_rx_rxLen (s : State) (m : Memory) : (s.setBuf .rx m).rxLen = s.rxLen := rfl
@[simp] theorem State.setBuf_rx_rxCap (s : State) (m : Memory) : (s.setBuf .rx m).rxCap = s.rxCap := rfl
@[simp] theorem State.setBuf_rx_host (s : State) (m : Memory) : (s.setBuf .rx m).host = s.host := rfl
@[simp] theorem State.setBuf_rx_responses (s : State) (m : Memory) : (s.setBuf .rx m).responses = s.responses := rfl

@[simp] theorem State.buf_tx (s : State) : s.buf .tx = s.txBuf := rfl
@[simp] theorem State.buf_rx (s : State) : s.buf .rx = s.rxBuf := rfl

@[simp] theorem State.answer_acc (s : State) (r : Word) : (s.answer r).acc = s.acc := rfl
@[simp] theorem State.answer_parAddr (s : State) (r : Word) : (s.answer r).parAddr = s.parAddr := rfl
@[simp] theorem State.answer_parFunc (s : State) (r : Word) : (s.answer r).parFunc = s.parFunc := rfl
@[simp] theorem State.answer_parStart (s : State) (r : Word) : (s.answer r).parStart = s.parStart := rfl
@[simp] theorem State.answer_parCount (s : State) (r : Word) : (s.answer r).parCount = s.parCount := rfl
@[simp] theorem State.answer_txBuf (s : State) (r : Word) : (s.answer r).txBuf = s.txBuf := rfl
@[simp] theorem State.answer_txLen (s : State) (r : Word) : (s.answer r).txLen = s.txLen := rfl
@[simp] theorem State.answer_rxBuf (s : State) (r : Word) : (s.answer r).rxBuf = s.rxBuf := rfl
@[simp] theorem State.answer_rxLen (s : State) (r : Word) : (s.answer r).rxLen = s.rxLen := rfl
@[simp] theorem State.answer_rxCap (s : State) (r : Word) : (s.answer r).rxCap = s.rxCap := rfl
@[simp] theorem State.answer_host (s : State) (r : Word) : (s.answer r).host = s.host := rfl
@[simp] theorem State.answer_responses (s : State) (r : Word) : (s.answer r).responses = s.responses ++ [r] := rfl

/-- Any write of a parameter register leaves the other kinds of state alone. -/
theorem State.setPar_acc (s : State) (i : Fin 4) (v : Word) : (s.setPar i v).acc = s.acc := by
  match i with | 0 | 1 | 2 | 3 => rfl
theorem State.setPar_txBuf (s : State) (i : Fin 4) (v : Word) : (s.setPar i v).txBuf = s.txBuf := by
  match i with | 0 | 1 | 2 | 3 => rfl
theorem State.setPar_txLen (s : State) (i : Fin 4) (v : Word) : (s.setPar i v).txLen = s.txLen := by
  match i with | 0 | 1 | 2 | 3 => rfl
theorem State.setPar_rxBuf (s : State) (i : Fin 4) (v : Word) : (s.setPar i v).rxBuf = s.rxBuf := by
  match i with | 0 | 1 | 2 | 3 => rfl
theorem State.setPar_rxLen (s : State) (i : Fin 4) (v : Word) : (s.setPar i v).rxLen = s.rxLen := by
  match i with | 0 | 1 | 2 | 3 => rfl
theorem State.setPar_rxCap (s : State) (i : Fin 4) (v : Word) : (s.setPar i v).rxCap = s.rxCap := by
  match i with | 0 | 1 | 2 | 3 => rfl
theorem State.setPar_host (s : State) (i : Fin 4) (v : Word) : (s.setPar i v).host = s.host := by
  match i with | 0 | 1 | 2 | 3 => rfl
theorem State.setPar_responses (s : State) (i : Fin 4) (v : Word) : (s.setPar i v).responses = s.responses := by
  match i with | 0 | 1 | 2 | 3 => rfl

/-- `PAR[i]` reads back what was written to it. -/
@[simp] theorem State.par_setPar_same (s : State) (i : Fin 4) (v : Word) : (s.setPar i v).par i = v := by
  match i with | 0 | 1 | 2 | 3 => rfl

/-- A write of `PAR[i]` leaves every other parameter register alone (R21: none aliases another). -/
theorem State.par_setPar_other (s : State) (i j : Fin 4) (v : Word) (h : j ≠ i) : (s.setPar i v).par j = s.par j := by
  match i, j, h with
  | 0, 1, _ | 0, 2, _ | 0, 3, _ | 1, 0, _ | 1, 2, _ | 1, 3, _ | 2, 0, _ | 2, 1, _ | 2, 3, _ | 3, 0, _ | 3, 1, _ | 3, 2, _ => rfl
  | 0, 0, h | 1, 1, h | 2, 2, h | 3, 3, h => exact absurd rfl h

/-- The shared reset of the `RESET` command and of the reset event, field by field. -/
@[simp] theorem State.resetBlock_acc (s : State) : s.resetBlock.acc = 0xFFFF#16 := rfl
@[simp] theorem State.resetBlock_parAddr (s : State) : s.resetBlock.parAddr = 0#32 := rfl
@[simp] theorem State.resetBlock_parFunc (s : State) : s.resetBlock.parFunc = 0#32 := rfl
@[simp] theorem State.resetBlock_parStart (s : State) : s.resetBlock.parStart = 0#32 := rfl
@[simp] theorem State.resetBlock_parCount (s : State) : s.resetBlock.parCount = 0#32 := rfl
@[simp] theorem State.resetBlock_txBuf (s : State) : s.resetBlock.txBuf = [] := by simp [State.resetBlock, Memory.truncate]
@[simp] theorem State.resetBlock_txLen (s : State) : s.resetBlock.txLen = 0#4 := rfl
@[simp] theorem State.resetBlock_rxBuf (s : State) : s.resetBlock.rxBuf = [] := by simp [State.resetBlock, Memory.truncate]
@[simp] theorem State.resetBlock_rxLen (s : State) : s.resetBlock.rxLen = 0#16 := by simp [State.resetBlock]
@[simp] theorem State.resetBlock_rxCap (s : State) : s.resetBlock.rxCap = s.rxCap := rfl
@[simp] theorem State.resetBlock_host (s : State) : s.resetBlock.host = s.host := rfl
@[simp] theorem State.resetBlock_responses (s : State) : s.resetBlock.responses = s.responses := rfl

/-- The reset state is that of the default capacity. -/
@[simp] theorem State.reset_eq : State.reset = State.resetFor 100#16 := rfl

@[simp] theorem State.resetFor_acc (cap : BitVec 16) : (State.resetFor cap).acc = 0xFFFF#16 := rfl
@[simp] theorem State.resetFor_parAddr (cap : BitVec 16) : (State.resetFor cap).parAddr = 0#32 := rfl
@[simp] theorem State.resetFor_parFunc (cap : BitVec 16) : (State.resetFor cap).parFunc = 0#32 := rfl
@[simp] theorem State.resetFor_parStart (cap : BitVec 16) : (State.resetFor cap).parStart = 0#32 := rfl
@[simp] theorem State.resetFor_parCount (cap : BitVec 16) : (State.resetFor cap).parCount = 0#32 := rfl
@[simp] theorem State.resetFor_txBuf (cap : BitVec 16) : (State.resetFor cap).txBuf = [] := rfl
@[simp] theorem State.resetFor_txLen (cap : BitVec 16) : (State.resetFor cap).txLen = 0#4 := rfl
@[simp] theorem State.resetFor_rxBuf (cap : BitVec 16) : (State.resetFor cap).rxBuf = [] := rfl
@[simp] theorem State.resetFor_rxLen (cap : BitVec 16) : (State.resetFor cap).rxLen = 0#16 := rfl
@[simp] theorem State.resetFor_rxCap (cap : BitVec 16) : (State.resetFor cap).rxCap = cap := rfl
@[simp] theorem State.resetFor_host (cap : BitVec 16) : (State.resetFor cap).host = [] := rfl
@[simp] theorem State.resetFor_responses (cap : BitVec 16) : (State.resetFor cap).responses = [] := rfl

end Sys2Proof.Machine
end

