-- ==== Sys2Proof/Laws/Memory.lean ====
section
/-! SUPPORT. The buffers as memories: reads after writes, the canonical form kept, and the cells of a byte sequence. -/

namespace Sys2Proof.Machine

@[simp] theorem Memory.read_nil (i : Nat) : Memory.read [] i = none := rfl

theorem Memory.read_cons (a : Nat) (b : Byte) (m : Memory) (i : Nat) :
    Memory.read ((a, b) :: m) i = if a = i then some b else Memory.read m i := rfl

/-- A read after a write to the same index gives the byte written. -/
@[simp] theorem Memory.read_write_same (m : Memory) (i : Nat) (v : Byte) : (m.write i v).read i = some v := by
  induction m with
  | nil => simp [Memory.write, Memory.read]
  | cons c m ih =>
    obtain ⟨a, b⟩ := c
    simp only [Memory.write]
    split
    · simp [Memory.read]
    · split
      · simp [Memory.read]
      · rename_i h1 h2
        simp [Memory.read, ih]
        omega

/-- A write leaves every other index alone. -/
theorem Memory.read_write_other (m : Memory) (i j : Nat) (v : Byte) (h : j ≠ i) : (m.write i v).read j = m.read j := by
  induction m with
  | nil => simp [Memory.write, Memory.read]; omega
  | cons c m ih =>
    obtain ⟨a, b⟩ := c
    simp only [Memory.write]
    split
    · simp [Memory.read]; omega
    · split
      · rename_i h1 h2
        subst h2
        simp only [Memory.read]
        rw [if_neg (by omega), if_neg (by omega)]
      · simp [Memory.read, ih]

/-- Reading after a write, in one equation. -/
theorem Memory.read_write (m : Memory) (i j : Nat) (v : Byte) :
    (m.write i v).read j = if j = i then some v else m.read j := by
  by_cases h : j = i
  · subst h; simp
  · rw [Memory.read_write_other m i j v h, if_neg h]

/-- Truncation keeps the bytes below the length and no other. -/
theorem Memory.read_truncate (m : Memory) (n i : Nat) :
    (m.truncate n).read i = if i < n then m.read i else none := by
  induction m with
  | nil => simp [Memory.truncate]
  | cons c m ih =>
    obtain ⟨a, b⟩ := c
    simp only [Memory.truncate] at ih ⊢
    by_cases h : a < n
    · simp only [List.filter_cons, h, decide_true, if_true, Memory.read, ih]
      by_cases h2 : a = i
      · subst h2; simp [h]
      · simp [h2]
    · rw [List.filter_cons_of_neg (by simpa using h), ih, Memory.read_cons]
      by_cases h2 : i < n
      · rw [if_pos h2, if_pos h2, if_neg (by omega)]
      · rw [if_neg h2, if_neg h2]

@[simp] theorem Memory.truncate_nil (n : Nat) : Memory.truncate [] n = [] := rfl

@[simp] theorem Memory.truncate_zero (m : Memory) : Memory.truncate m 0 = [] := by simp [Memory.truncate]

theorem Memory.wf_nil : Memory.wf [] := List.Pairwise.nil

/-- The cells a write leaves are the old ones and the one written. -/
theorem Memory.mem_write {m : Memory} {i : Nat} {v : Byte} {c : Host.Cell} (h : c ∈ m.write i v) : c = (i, v) ∨ c ∈ m := by
  induction m with
  | nil => simpa [Memory.write] using h
  | cons d m ih =>
    obtain ⟨a, b⟩ := d
    simp only [Memory.write] at h
    split at h
    · simpa using h
    · split at h
      · rcases List.mem_cons.mp h with h | h
        · exact .inl h
        · exact .inr (List.mem_cons_of_mem _ h)
      · rcases List.mem_cons.mp h with h | h
        · exact .inr (h ▸ List.mem_cons_self ..)
        · exact (ih h).imp id (List.mem_cons_of_mem _)

/-- A write keeps the canonical form. -/
theorem Memory.wf_write (m : Memory) (i : Nat) (v : Byte) (h : m.wf) : (m.write i v).wf := by
  induction m with
  | nil => exact List.pairwise_singleton _ _
  | cons c m ih =>
    obtain ⟨a, b⟩ := c
    have hc := List.pairwise_cons.mp h
    simp only [Memory.write]
    split
    · rename_i hi
      refine List.pairwise_cons.mpr ⟨fun d hd => ?_, h⟩
      rcases List.mem_cons.mp hd with rfl | hd
      · exact hi
      · exact Nat.lt_trans hi (hc.1 d hd)
    · split
      · rename_i hi
        subst hi
        exact List.pairwise_cons.mpr ⟨hc.1, hc.2⟩
      · refine List.pairwise_cons.mpr ⟨fun d hd => ?_, ih hc.2⟩
        rcases Memory.mem_write hd with rfl | hd
        · show a < i
          omega
        · exact hc.1 d hd

/-- Truncation keeps the canonical form. -/
theorem Memory.wf_truncate (m : Memory) (n : Nat) (h : m.wf) : (m.truncate n).wf := h.filter _

/-- In canonical form no byte stands below the first index. -/
theorem Memory.read_of_lt_all {m : Memory} {i : Nat} (h : ∀ c ∈ m, i < c.1) : m.read i = none := by
  induction m with
  | nil => rfl
  | cons c m ih =>
    obtain ⟨a, b⟩ := c
    have ha := h (a, b) (List.mem_cons_self ..)
    rw [Memory.read_cons, if_neg (by have : i < a := ha; omega)]
    exact ih (fun c hc => h c (List.mem_cons_of_mem _ hc))

/-- Two memories in canonical form that read alike are equal. -/
theorem Memory.ext_of_wf {m m' : Memory} (h : m.wf) (h' : m'.wf) (hr : ∀ i, m.read i = m'.read i) : m = m' := by
  induction m generalizing m' with
  | nil =>
    cases m' with
    | nil => rfl
    | cons c m' => have := hr c.1; simp [Memory.read] at this
  | cons c m ih =>
    obtain ⟨a, b⟩ := c
    have hc := List.pairwise_cons.mp h
    cases m' with
    | nil => have := hr a; simp [Memory.read] at this
    | cons c' m' =>
      obtain ⟨a', b'⟩ := c'
      have hc' := List.pairwise_cons.mp h'
      have haa : a = a' := by
        rcases Nat.lt_trichotomy a a' with hlt | heq | hgt
        · have h1 := hr a
          rw [Memory.read_cons, if_pos rfl, Memory.read_cons, if_neg (by omega),
            Memory.read_of_lt_all (fun d hd => Nat.lt_trans hlt (hc'.1 d hd))] at h1
          cases h1
        · exact heq
        · have h1 := hr a'
          rw [Memory.read_cons, if_neg (by omega), Memory.read_cons, if_pos rfl,
            Memory.read_of_lt_all (fun d hd => Nat.lt_trans hgt (hc.1 d hd))] at h1
          cases h1
      subst haa
      have hb := hr a
      simp only [Memory.read_cons, if_true, Option.some.injEq] at hb
      subst hb
      have : m = m' := ih hc.2 hc'.2 (fun i => by
        have h1 := hr i
        simp only [Memory.read_cons] at h1
        by_cases hi : a = i
        · subst hi
          rw [Memory.read_of_lt_all hc.1, Memory.read_of_lt_all hc'.1]
        · simpa [hi] using h1)
      rw [this]

/-- The byte at an index of a laid out sequence. -/
theorem Memory.read_ofBytes (k : Nat) (bs : List Byte) (i : Nat) :
    (Memory.ofBytes k bs).read i = if k ≤ i then bs[i - k]? else none := by
  induction bs generalizing k with
  | nil => simp [Memory.ofBytes]
  | cons b bs ih =>
    rw [Memory.ofBytes, Memory.read_cons, ih]
    by_cases h : k = i
    · subst h; simp
    · rw [if_neg h]
      by_cases h2 : k ≤ i
      · have e : i - k = (i - (k + 1)) + 1 := by omega
        rw [if_pos (by omega), if_pos h2, e, List.getElem?_cons_succ]
      · rw [if_neg (by omega), if_neg h2]

theorem Memory.le_of_mem_ofBytes {k : Nat} {bs : List Byte} {c : Host.Cell} (h : c ∈ Memory.ofBytes k bs) : k ≤ c.1 := by
  induction bs generalizing k with
  | nil => simp [Memory.ofBytes] at h
  | cons b bs ih =>
    rcases List.mem_cons.mp h with rfl | h
    · exact Nat.le_refl _
    · exact Nat.le_of_succ_le (ih h)

/-- A laid out sequence is in canonical form. -/
theorem Memory.wf_ofBytes (k : Nat) (bs : List Byte) : (Memory.ofBytes k bs).wf := by
  induction bs generalizing k with
  | nil => exact List.Pairwise.nil
  | cons b bs ih => exact List.pairwise_cons.mpr ⟨fun _ hc => Memory.le_of_mem_ofBytes hc, ih (k + 1)⟩

/-- The valid bytes of a laid out sequence are the sequence. -/
@[simp] theorem Memory.bytes_ofBytes (k : Nat) (bs : List Byte) : (Memory.ofBytes k bs).bytes = bs := by
  induction bs generalizing k with
  | nil => rfl
  | cons b bs ih => simpa [Memory.ofBytes, Memory.bytes] using ih (k + 1)

/-- A laid out sequence holds exactly its bytes. -/
theorem Memory.holds_ofBytes (bs : List Byte) : (Memory.ofBytes 0 bs).holds bs.length := by simp [Memory.holds]

/-- A buffer that holds `n` bytes is in canonical form. -/
theorem Memory.holds.wf {m : Memory} {n : Nat} (h : m.holds n) : m.wf := h.2 ▸ Memory.wf_ofBytes 0 _

/-- What a buffer that holds `n` bytes reads. -/
theorem Memory.holds.read {m : Memory} {n : Nat} (h : m.holds n) (i : Nat) : m.read i = m.bytes[i]? := by
  have := Memory.read_ofBytes 0 m.bytes i
  rw [← h.2] at this
  simpa using this

/-- A write right after the last byte appends. -/
theorem Memory.write_ofBytes_length (bs : List Byte) (v : Byte) :
    (Memory.ofBytes 0 bs).write bs.length v = Memory.ofBytes 0 (bs ++ [v]) := by
  refine Memory.ext_of_wf (Memory.wf_write _ _ _ (Memory.wf_ofBytes 0 bs)) (Memory.wf_ofBytes 0 _) fun i => ?_
  rw [Memory.read_write, Memory.read_ofBytes, Memory.read_ofBytes]
  rcases Nat.lt_trichotomy i bs.length with h | h | h
  · simp [Nat.ne_of_lt h, List.getElem?_append_left h]
  · simp [h]
  · have : ¬ i = bs.length := by omega
    simp only [this, if_false, Nat.zero_le, if_true, Nat.sub_zero]
    rw [List.getElem?_eq_none (by omega), List.getElem?_eq_none (by simp; omega)]

/-- Truncating a laid out sequence takes its first bytes. -/
theorem Memory.truncate_ofBytes (bs : List Byte) (n : Nat) :
    (Memory.ofBytes 0 bs).truncate n = Memory.ofBytes 0 (bs.take n) := by
  refine Memory.ext_of_wf (Memory.wf_truncate _ _ (Memory.wf_ofBytes 0 bs)) (Memory.wf_ofBytes 0 _) fun i => ?_
  rw [Memory.read_truncate, Memory.read_ofBytes, Memory.read_ofBytes]
  by_cases h : i < n <;> simp [h]

end Sys2Proof.Machine
end

