-- ==== Sys2Proof/Laws/Ops.lean ====
section
/-! SUPPORT. What each shared operation over the state can do, said once. -/

namespace Sys2Proof.Machine

/-- One byte written after another, as one memory operation. -/
def Memory.writeSeq (m : Memory) : Nat → List Byte → Memory
  | _, [] => m
  | i, b :: bs => Memory.writeSeq (m.write i b) (i + 1) bs

@[simp] theorem State.buf_setBuf_same (s : State) (sp : Space) (m : Memory) : (s.setBuf sp m).buf sp = m := by
  cases sp <;> rfl

@[simp] theorem State.setBuf_setBuf (s : State) (sp : Space) (m m' : Memory) : (s.setBuf sp m).setBuf sp m' = s.setBuf sp m' := by
  cases sp <;> rfl

@[simp] theorem State.setBuf_buf (s : State) (sp : Space) : s.setBuf sp (s.buf sp) = s := by cases sp <;> rfl

/-- A one-byte read answers a byte exactly where the space has the index and the byte is valid. -/
theorem memRead_eq_ok {sp : Space} {size i : Nat} {s : State} {b : Byte} :
    memRead sp size i s = .ok b ↔ i < size ∧ (s.buf sp).read i = some b := by
  unfold memRead
  split
  · cases h : (s.buf sp).read i <;> simp [*]
  · simp [*]

/-- A one-byte write inside the space puts the byte there. -/
theorem memWrite_ok {sp : Space} {size i : Nat} (h : i < size) (v : Byte) (s : State) :
    memWrite sp size i v s = .ok (s.setBuf sp ((s.buf sp).write i v)) := by simp [memWrite, h]

/-- Writes inside the space put the bytes there, one after another. -/
theorem memWriteSeq_ok {sp : Space} {size : Nat} (bs : List Byte) (i : Nat) (h : i + bs.length ≤ size) (s : State) :
    memWriteSeq sp size i bs s = .ok (s.setBuf sp ((s.buf sp).writeSeq i bs)) := by
  induction bs generalizing i s with
  | nil => simp [memWriteSeq, Memory.writeSeq]
  | cons b bs ih =>
    have hlen : i + (bs.length + 1) ≤ size := by simpa using h
    rw [memWriteSeq, memWrite_ok (by omega)]
    simp [ih (i + 1) (by omega), Memory.writeSeq]

/-- A sequence of reads answers a byte sequence exactly where every byte is in the space and valid. -/
theorem memReadSeq_eq_ok {sp : Space} {size : Nat} {s : State} (n i : Nat) (bs : List Byte) :
    memReadSeq sp size s i n = .ok bs ↔
      bs.length = n ∧ ∀ k, k < n → i + k < size ∧ (s.buf sp).read (i + k) = bs[k]? := by
  induction n generalizing i bs with
  | zero =>
    simp only [memReadSeq, Except.ok.injEq, Nat.not_lt_zero, false_imp_iff, implies_true, and_true]
    exact ⟨fun h => h ▸ rfl, fun h => (List.length_eq_zero_iff.mp h).symm⟩
  | succ n ih =>
    rw [memReadSeq]
    constructor
    · intro h
      cases h1 : memRead sp size i s with
      | error f => simp [h1] at h
      | ok b =>
        cases h2 : memReadSeq sp size s (i + 1) n with
        | error f => simp [h1, h2] at h
        | ok cs =>
          simp only [h1, h2, Except.ok.injEq] at h
          subst h
          have hb := memRead_eq_ok.mp h1
          obtain ⟨hl, hk⟩ := (ih (i + 1) cs).mp h2
          refine ⟨by simp [hl], fun k hkn => ?_⟩
          cases k with
          | zero => simpa using hb
          | succ k =>
            have := hk k (by omega)
            rw [Nat.add_assoc, Nat.add_comm 1 k] at this
            simpa using this
    · rintro ⟨hl, hk⟩
      cases bs with
      | nil => simp at hl
      | cons b cs =>
        have h0 := hk 0 (by omega)
        have h1 : memRead sp size i s = .ok b := memRead_eq_ok.mpr (by simpa using h0)
        have h2 : memReadSeq sp size s (i + 1) n = .ok cs := by
          refine (ih (i + 1) cs).mpr ⟨by simpa using hl, fun k hkn => ?_⟩
          have := hk (k + 1) (by omega)
          rw [Nat.add_assoc, Nat.add_comm 1 k]
          simpa using this
        simp [h1, h2]

/-- Reading a buffer that holds `n` bytes from its start. -/
theorem memReadSeq_holds {sp : Space} {size n k : Nat} {s : State} (h : (s.buf sp).holds n) (hk : k ≤ n) (hs : k ≤ size) :
    memReadSeq sp size s 0 k = .ok ((s.buf sp).bytes.take k) := by
  refine (memReadSeq_eq_ok k 0 _).mpr ⟨by simp [h.1]; omega, fun j hj => ⟨by omega, ?_⟩⟩
  rw [Nat.zero_add, h.read j, List.getElem?_take, if_pos hj]

/-- A sequence of writes keeps the canonical form. -/
theorem Memory.wf_writeSeq (bs : List Byte) (m : Memory) (i : Nat) (h : m.wf) : (m.writeSeq i bs).wf := by
  induction bs generalizing m i with
  | nil => exact h
  | cons b bs ih => exact ih _ _ (Memory.wf_write m i b h)

/-- What is read after a sequence of writes: the bytes written at their indices, the old ones elsewhere. -/
theorem Memory.read_writeSeq (bs : List Byte) (m : Memory) (i j : Nat) :
    (m.writeSeq i bs).read j = if i ≤ j ∧ j < i + bs.length then bs[j - i]? else m.read j := by
  induction bs generalizing m i with
  | nil => simp [Memory.writeSeq]
  | cons b bs ih =>
    rw [Memory.writeSeq, ih, Memory.read_write]
    by_cases h : j = i
    · subst h; simp
    · by_cases h2 : i + 1 ≤ j ∧ j < i + 1 + bs.length
      · have e : j - i = (j - (i + 1)) + 1 := by omega
        rw [if_pos h2, if_pos (by simp; omega), e, List.getElem?_cons_succ]
      · rw [if_neg h2, if_neg h, if_neg (by simp; omega)]

/-- Writing a whole sequence from index 0 and keeping that many bytes lays out the sequence. -/
theorem Memory.truncate_writeSeq_zero (bs : List Byte) (m : Memory) (h : m.wf) :
    (m.writeSeq 0 bs).truncate bs.length = Memory.ofBytes 0 bs := by
  refine Memory.ext_of_wf (Memory.wf_truncate _ _ (Memory.wf_writeSeq _ _ _ h)) (Memory.wf_ofBytes 0 _) fun i => ?_
  rw [Memory.read_truncate, Memory.read_writeSeq, Memory.read_ofBytes]
  by_cases hi : i < bs.length
  · simp [hi]
  · simp [hi]

/-- Writing a sequence right after the last byte appends it. -/
theorem Memory.writeSeq_ofBytes_length (cs bs : List Byte) :
    (Memory.ofBytes 0 bs).writeSeq bs.length cs = Memory.ofBytes 0 (bs ++ cs) := by
  induction cs generalizing bs with
  | nil => simp [Memory.writeSeq]
  | cons c cs ih =>
    have := ih (bs ++ [c])
    rw [Memory.writeSeq, Memory.write_ofBytes_length]
    simpa using this

/-- `respond` answers a next state: the state with the response word delivered. -/
theorem respond_eq (v : Half) (s : State) : respond v s = .next (s.answer (okWord v)) := rfl

/-- `raise` answers a next state: the state as it was with the error's response word delivered. -/
theorem raise_eq (e : Error) (s : State) : raise e s = .next (s.answer (errorWord e)) := rfl

@[simp] theorem withAccess_ok {α : Type} (a : α) (k : α → Result) : withAccess (.ok a) k = k a := rfl

@[simp] theorem withAccess_error {α : Type} (f : Fault) (k : α → Result) : withAccess (.error f) k = .fault f := rfl

/-- An access that goes on answers a next state only through what the access gave. -/
theorem withAccess_next {α : Type} {r : Except Fault α} {k : α → Result} {t : State} (h : withAccess r k = .next t) :
    ∃ a, r = .ok a ∧ k a = .next t := by
  cases r with
  | ok a => exact ⟨a, rfl, h⟩
  | error f => cases h

/-- The shared reset is the reset state on the block's side, with the host's side as it was. -/
theorem State.resetBlock_eq (s : State) : s.resetBlock = { State.resetFor s.rxCap with host := s.host, responses := s.responses } := by
  simp [State.resetBlock, State.setRxLen, State.setTxLen, State.setPar, State.setAcc, State.resetFor]

end Sys2Proof.Machine
end

