-- ==== Sys2Proof/Laws/Words.lean ====
section
/-! SUPPORT. The response words of the status codes, the CRC fold, and the decoder's fields. -/

namespace Sys2Proof.Machine

@[simp] theorem okWord_zero : okWord 0#16 = 0x00000000#32 := by decide
@[simp] theorem okWord_one : okWord 1#16 = 0x00000001#32 := by decide
@[simp] theorem errorWord_illegalCommand : errorWord .illegalCommand = 0x20000000#32 := by decide
@[simp] theorem errorWord_sequenceError : errorWord .sequenceError = 0x30000000#32 := by decide
@[simp] theorem errorWord_indexOutOfRange : errorWord .indexOutOfRange = 0x40000000#32 := by decide
@[simp] theorem errorWord_bufferFull : errorWord .bufferFull = 0x50000000#32 := by decide
@[simp] theorem errorWord_field0 : errorWord (.parameterOutOfRange 0) = 0x10000000#32 := by decide
@[simp] theorem errorWord_field1 : errorWord (.parameterOutOfRange 1) = 0x11000000#32 := by decide
@[simp] theorem errorWord_field2 : errorWord (.parameterOutOfRange 2) = 0x12000000#32 := by decide
@[simp] theorem errorWord_field3 : errorWord (.parameterOutOfRange 3) = 0x13000000#32 := by decide

@[simp] theorem crcFold_nil (a : Half) : crcFold a [] = a := rfl
@[simp] theorem crcFold_cons (a : Half) (b : Byte) (bs : List Byte) : crcFold a (b :: bs) = crcFold (crcByte a b) bs := rfl

/-- The CRC fold is a left fold. -/
theorem crcFold_eq_foldl (a : Half) (bs : List Byte) : crcFold a bs = bs.foldl crcByte a := by
  induction bs generalizing a with
  | nil => rfl
  | cons b bs ih => exact ih _

/-- `okWord` carries its value zero-extended. -/
theorem okWord_eq_setWidth (v : Half) : okWord v = v.setWidth 32 := by
  have h : okWord v = 0#16 ++ v := by simp [okWord, responseWord, Status.code]
  rw [h]
  apply BitVec.eq_of_getLsbD_eq
  intro i hi
  rw [BitVec.getLsbD_append, BitVec.getLsbD_setWidth]
  by_cases h2 : i < 16
  · rw [if_pos h2]; simp [hi]
  · rw [if_neg h2, BitVec.getLsbD_of_ge v i (by omega)]; simp

end Sys2Proof.Machine
end

