-- ==== Sys2Proof/Laws/Exec.lean ====
section
/-! SUPPORT. What each meaning that checks something or reaches a buffer can do when it answers a next state, and what every
command keeps of the host's side. -/

namespace Sys2Proof.Machine

/-- `BUILD` either reports the lowest bad field or packs the frame; it never stops. -/
theorem execBuild_eq (s : State) :
    (∃ i, s.checkParams = .outOfRange i ∧ execBuild s = .next (s.answer (errorWord (.parameterOutOfRange i)))) ∨
    (s.checkParams = .valid ∧
      execBuild s = .next (((s.setBuf .tx (s.txBuf.writeSeq 0
        (buildRequest s.parAddr s.parFunc s.parStart s.parCount))).setTxLen 6#4).answer (okWord 0#16))) := by
  unfold execBuild
  cases h : s.checkParams with
  | outOfRange i => exact .inl ⟨i, rfl, rfl⟩
  | valid =>
    refine .inr ⟨rfl, ?_⟩
    rw [memWriteSeq_ok _ _ (by simp [buildRequest, Config.txCap])]
    rfl

/-- `ATTACH` outside `TXLEN = 6`. -/
theorem execAttach_reject (s : State) (h : s.txLen ≠ 6#4) : execAttach s = .next (s.answer (errorWord .sequenceError)) := by
  rw [execAttach, if_neg h]; rfl

/-- `ATTACH` at `TXLEN = 6` once its six bytes are read. -/
theorem execAttach_accept (s : State) (h : s.txLen = 6#4) {frame : List Byte}
    (hf : memReadSeq .tx Config.txCap s 0 Config.frameLen = .ok frame) :
    execAttach s = .next (((s.setBuf .tx (s.txBuf.writeSeq 6 (crcBytes frame))).setTxLen 8#4).answer (okWord 0#16)) := by
  rw [execAttach, if_pos h, hf, withAccess_ok, memWriteSeq_ok _ _ (by simp [crcBytes, Config.txCap, Config.frameLen])]
  rfl

/-- What `ATTACH` has done when it answers. -/
theorem execAttach_next {s t : State} (h : execAttach s = .next t) :
    (s.txLen ≠ 6#4 ∧ t = s.answer (errorWord .sequenceError)) ∨
    (s.txLen = 6#4 ∧ ∃ frame, memReadSeq .tx Config.txCap s 0 Config.frameLen = .ok frame ∧
      t = ((s.setBuf .tx (s.txBuf.writeSeq 6 (crcBytes frame))).setTxLen 8#4).answer (okWord 0#16)) := by
  by_cases h6 : s.txLen = 6#4
  · cases hf : memReadSeq .tx Config.txCap s 0 Config.frameLen with
    | error f => simp [execAttach, h6, hf] at h
    | ok frame =>
      rw [execAttach_accept s h6 hf] at h
      exact .inr ⟨h6, frame, rfl, by injection h with h; exact h.symm⟩
  · rw [execAttach_reject s h6] at h
    exact .inl ⟨h6, by injection h with h; exact h.symm⟩

/-- What `TX.RD` has done when it answers. -/
theorem execTxRd_next {b : Byte} {s t : State} (h : execTxRd b s = .next t) :
    (s.txLen.toNat ≤ b.toNat ∧ t = s.answer (errorWord .indexOutOfRange)) ∨
    (b.toNat < s.txLen.toNat ∧ ∃ v, memRead .tx Config.txCap b.toNat s = .ok v ∧ t = s.answer (okWord (zext16 v))) := by
  unfold execTxRd at h
  split at h
  · rename_i hb
    exact .inl ⟨hb, by rw [raise_eq] at h; injection h with h; exact h.symm⟩
  · rename_i hb
    obtain ⟨v, hv, hk⟩ := withAccess_next h
    exact .inr ⟨by omega, v, hv, by rw [respond_eq] at hk; injection hk with hk; exact hk.symm⟩

/-- `RX.PUSH` at `RX_CAP`. -/
theorem execRxPush_full {b : Byte} {s : State} (h : s.rxLen = s.rxCap) :
    execRxPush b s = .next (s.answer (errorWord .bufferFull)) := by
  rw [execRxPush, if_pos h, raise_eq]

/-- `RX.PUSH` with room completes. -/
theorem execRxPush_room {b : Byte} {s : State} (h : s.rxLen.toNat < s.rxCap.toNat) :
    execRxPush b s =
      .next (((s.setBuf .rx (s.rxBuf.write s.rxLen.toNat b)).setRxLen (s.rxLen + 1#16)).answer (okWord 0#16)) := by
  rw [execRxPush, if_neg (fun e => by rw [e] at h; omega), memWrite_ok h, withAccess_ok, respond_eq]
  rfl

/-- What `RX.PUSH` has done when it answers. -/
theorem execRxPush_next {b : Byte} {s t : State} (h : execRxPush b s = .next t) :
    (s.rxLen = s.rxCap ∧ t = s.answer (errorWord .bufferFull)) ∨
    (s.rxLen.toNat < s.rxCap.toNat ∧
      t = ((s.setBuf .rx (s.rxBuf.write s.rxLen.toNat b)).setRxLen (s.rxLen + 1#16)).answer (okWord 0#16)) := by
  by_cases hc : s.rxLen = s.rxCap
  · rw [execRxPush_full hc] at h
    exact .inl ⟨hc, by injection h with h; exact h.symm⟩
  · by_cases hl : s.rxLen.toNat < s.rxCap.toNat
    · rw [execRxPush_room hl] at h
      exact .inr ⟨hl, by injection h with h; exact h.symm⟩
    · simp [execRxPush, memWrite, hc, hl] at h

/-- What `VERIFY` has done when it answers. -/
theorem execVerify_next {s t : State} (h : execVerify s = .next t) :
    ∃ r, memReadSeq .rx s.rxCap.toNat s 0 s.rxLen.toNat = .ok r ∧
      t = s.answer (if verifyBytes r then okWord 1#16 else okWord 0#16) := by
  obtain ⟨r, hr, hk⟩ := withAccess_next h
  refine ⟨r, hr, ?_⟩
  split at hk <;> (rw [respond_eq] at hk; injection hk with hk; subst hk; simp [*])

/-- What any command has done when it answers, one case per kind of effect on the buffers. -/
theorem exec_next {i : Instr} {s t : State} (h : exec i s = .next t) :
    (i = .build ∧ execBuild s = .next t) ∨ (i = .attach ∧ execAttach s = .next t) ∨
    (i = .rxClr ∧ t = (s.setRxLen 0#16).answer (okWord 0#16)) ∨
    (∃ b, i = .rxPush b ∧ execRxPush b s = .next t) ∨
    (i = .reset ∧ t = s.resetBlock.answer (okWord 0#16)) ∨
    (∃ b, i = .txRd b ∧ execTxRd b s = .next t) ∨
    (i = .verify ∧ execVerify s = .next t) ∨
    (i = .crcInit ∧ t = (s.setAcc 0xFFFF#16).answer (okWord 0#16)) ∨
    (∃ b, i = .crcUpd b ∧ t = (s.setAcc (crcByte s.acc b)).answer (okWord 0#16)) ∨
    (i = .crcRd ∧ t = s.answer (okWord s.acc)) ∨
    (∃ v, (i = .parAddr v ∧ t = (s.setPar 0 v).answer (okWord 0#16)) ∨
      (i = .parFunc v ∧ t = (s.setPar 1 v).answer (okWord 0#16)) ∨
      (i = .parStart v ∧ t = (s.setPar 2 v).answer (okWord 0#16)) ∨
      (i = .parCount v ∧ t = (s.setPar 3 v).answer (okWord 0#16))) ∨
    (i = .txLen ∧ t = s.answer (okWord (zext16 s.txLen))) ∨
    (i = .rxLen ∧ t = s.answer (okWord (zext16 s.rxLen))) := by
  cases i <;>
    simp only [exec, execCrcInit, execCrcUpd, execCrcRd, execParAddr, execParFunc, execParStart, execParCount, execTxLen,
      execRxClr, execRxLen, execReset, respond_eq, Host.Outcome.next.injEq] at h <;>
    first | (subst h; simp) | simp [h]

/-- Every command that answers leaves what the host has still to send, and delivers exactly one response word. -/
theorem exec_host {i : Instr} {s t : State} (h : exec i s = .next t) :
    t.host = s.host ∧ ∃ r, t.responses = s.responses ++ [r] := by
  rcases exec_next h with ⟨-, h⟩ | ⟨-, h⟩ | ⟨-, rfl⟩ | ⟨b, -, h⟩ | ⟨-, rfl⟩ | ⟨b, -, h⟩ | ⟨-, h⟩ | ⟨-, rfl⟩ | ⟨b, -, rfl⟩ |
    ⟨-, rfl⟩ | ⟨v, ⟨-, rfl⟩ | ⟨-, rfl⟩ | ⟨-, rfl⟩ | ⟨-, rfl⟩⟩ | ⟨-, rfl⟩ | ⟨-, rfl⟩ <;> try simp
  · rcases execBuild_eq s with ⟨i, -, h'⟩ | ⟨-, h'⟩ <;> (rw [h'] at h; injection h with h; subst h; simp)
  · rcases execAttach_next h with ⟨-, rfl⟩ | ⟨-, f, -, rfl⟩ <;> simp
  · rcases execRxPush_next h with ⟨-, rfl⟩ | ⟨-, rfl⟩ <;> simp
  · rcases execTxRd_next h with ⟨-, rfl⟩ | ⟨-, v, -, rfl⟩ <;> simp
  · obtain ⟨r, -, rfl⟩ := execVerify_next h
    simp

/-- A step on a host's next event. -/
theorem step_cons (s : State) (e : HostEvent) (rest : List HostEvent) :
    step { s with host := e :: rest } = runEvent e { s with host := rest } := rfl

/-- A step with nothing from the host (log 2). -/
theorem step_nil {s : State} (h : s.host = []) : step s = .next s := by simp [step, runNext, h]

/-- A run of no step. -/
@[simp] theorem runSteps_zero (s : State) : runSteps 0 s = .next s := rfl

/-- A run of one more step, once its first step is known. -/
theorem runSteps_succ {n : Nat} {s t : State} (h : step s = .next t) : runSteps (n + 1) s = runSteps n t := by
  rw [runSteps, h]

/-- `runSteps` is the host's run of this machine. -/
theorem runSteps_eq_core_run (n : Nat) (s : State) : runSteps n s = Host.Core.run Sys2Proof.core n s := by
  induction n generalizing s with
  | zero => rfl
  | succ n ih =>
    refine Eq.trans ?_ (Host.Core.run.eq_2 Sys2Proof.core s n).symm
    rw [runSteps]
    cases h : step s with
    | next t =>
      have h' : Sys2Proof.core.step s = .next t := h
      rw [h']
      exact ih t
    | fault r =>
      have h' : Sys2Proof.core.step s = .fault r := h
      rw [h']
      rfl
    | refused r =>
      have h' : Sys2Proof.core.step s = .refused r := h
      rw [h']
      rfl

/-- A step on a command word that decodes, from a state given as a whole. -/
theorem step_of_decode {s t : State} {w : Command} {rest : List HostEvent} {i : Instr} (hs : s.host = .command w :: rest)
    (hd : decode w = .ok i) (h : exec i { s with host := rest } = .next t) : step s = .next t := by
  have e : s = { s with host := .command w :: rest } := by cases s; simp_all
  rw [e, step_cons, runEvent, runCommand, hd]
  exact h

end Sys2Proof.Machine
end

