-- ==== Sys2Proof/Laws/PerInstr.lean ====
section
/-! SUPPORT. A family of statements about every instruction as syntax: the fields of its command word. -/

namespace Sys2Proof

/-- The `OP` field of an encoded instruction is its opcode (R60). -/
theorem opField_encode (i : Instr) : opField (encode i) = i.opcode := by
  apply BitVec.eq_of_getLsbD_eq
  intro k hk
  rw [opField, BitVec.getLsbD_extractLsb', encode, BitVec.getLsbD_append, if_neg (by omega)]
  simp [hk]

/-- The `IMM` field of an encoded instruction is its immediate (R60). -/
theorem immField_encode (i : Instr) : immField (encode i) = i.imm := by
  apply BitVec.eq_of_getLsbD_eq
  intro k hk
  rw [immField, BitVec.getLsbD_extractLsb', encode, BitVec.getLsbD_append, if_pos (by omega)]
  simp [hk]

end Sys2Proof

namespace Sys2Proof.Laws.EncodedFields

/-- An instruction is well-formed and its command word carries its opcode in `OP` and its operand, zero-extended, in `IMM`. -/
def Statement (i : Instr) : Prop := i.wellFormed = true ∧ opField (encode i) = i.opcode ∧ (immField (encode i)).toNat = i.operand.getD 0

/-- The two fields, once the operand is known to fit. -/
theorem of_fits (i : Instr) (h : i.wellFormed = true) (hlt : i.operand.getD 0 < 2 ^ 32) : Statement i :=
  ⟨h, opField_encode i, by rw [immField_encode, Instr.imm, BitVec.toNat_ofNat, Nat.mod_eq_of_lt hlt]⟩

theorem crcInit : Statement .crcInit := of_fits _ rfl (by decide)
theorem crcUpd (b : Byte) : Statement (.crcUpd b) :=
  of_fits _ (by simp [Instr.wellFormed, operandFits, Instr.format, Instr.operand]; omega) (by simp [Instr.operand]; omega)
theorem crcRd : Statement .crcRd := of_fits _ rfl (by decide)
theorem parAddr (v : Word) : Statement (.parAddr v) :=
  of_fits _ (by simp [Instr.wellFormed, operandFits, Instr.format, Instr.operand]; omega) (by simp [Instr.operand]; omega)
theorem parFunc (v : Word) : Statement (.parFunc v) :=
  of_fits _ (by simp [Instr.wellFormed, operandFits, Instr.format, Instr.operand]; omega) (by simp [Instr.operand]; omega)
theorem parStart (v : Word) : Statement (.parStart v) :=
  of_fits _ (by simp [Instr.wellFormed, operandFits, Instr.format, Instr.operand]; omega) (by simp [Instr.operand]; omega)
theorem parCount (v : Word) : Statement (.parCount v) :=
  of_fits _ (by simp [Instr.wellFormed, operandFits, Instr.format, Instr.operand]; omega) (by simp [Instr.operand]; omega)
theorem build : Statement .build := of_fits _ rfl (by decide)
theorem attach : Statement .attach := of_fits _ rfl (by decide)
theorem txLen : Statement .txLen := of_fits _ rfl (by decide)
theorem txRd (b : Byte) : Statement (.txRd b) :=
  of_fits _ (by simp [Instr.wellFormed, operandFits, Instr.format, Instr.operand]; omega) (by simp [Instr.operand]; omega)
theorem rxClr : Statement .rxClr := of_fits _ rfl (by decide)
theorem rxPush (b : Byte) : Statement (.rxPush b) :=
  of_fits _ (by simp [Instr.wellFormed, operandFits, Instr.format, Instr.operand]; omega) (by simp [Instr.operand]; omega)
theorem rxLen : Statement .rxLen := of_fits _ rfl (by decide)
theorem verify : Statement .verify := of_fits _ rfl (by decide)
theorem reset : Statement .reset := of_fits _ rfl (by decide)

end Sys2Proof.Laws.EncodedFields
end

