-- ==== Sys2Proof/Laws/Decode.lean ====
section
/-! SUPPORT. When each step of the decoder answers an instruction. -/

namespace Sys2Proof

/-- Format N answers its command exactly when `IMM` is zero (R61). -/
@[simp] theorem decodeN_eq_ok {op : BitVec 8} {imm : Word} {c i : Instr} :
    decodeN op imm c = .ok i ↔ imm = 0#32 ∧ c = i := by
  unfold decodeN
  split <;> simp [*]

/-- Format B answers its command exactly when `IMM[31:8]` is zero (R62). -/
@[simp] theorem decodeB_eq_ok {op : BitVec 8} {imm : Word} {c : Byte → Instr} {i : Instr} :
    decodeB op imm c = .ok i ↔ imm.extractLsb' 8 24 = 0#24 ∧ c (imm.extractLsb' 0 8) = i := by
  unfold decodeB
  split <;> simp [*]

/-- Format W always answers its command (R63). -/
@[simp] theorem decodeW_eq_ok {imm : Word} {c : Word → Instr} {i : Instr} : decodeW imm c = .ok i ↔ c imm = i := by
  simp [decodeW]

/-- A command word is its two fields (R60). -/
theorem opField_append_immField (w : Command) : opField w ++ immField w = w := by
  apply BitVec.eq_of_getLsbD_eq
  intro k hk
  simp only [opField, immField, BitVec.getLsbD_append, BitVec.getLsbD_extractLsb']
  by_cases h : k < 32
  · simp [h]
  · have h1 : k - 32 < 8 := by omega
    have h2 : 32 + (k - 32) = k := by omega
    simp [h, h1, h2]

/-- An immediate with zero upper bits is its low byte (R62). -/
theorem ofNat_low_byte {v : Word} (h : v.extractLsb' 8 24 = 0#24) : BitVec.ofNat 32 (v.extractLsb' 0 8).toNat = v := by
  have := congrArg BitVec.toNat h
  apply BitVec.eq_of_toNat_eq
  simp [BitVec.extractLsb'_toNat, Nat.shiftRight_eq_div_pow] at *
  omega

/-- A byte as an immediate: its upper bits are zero and its low byte is the byte (R62). -/
theorem low_byte_of_ofNat (b : Byte) :
    (BitVec.ofNat 32 b.toNat).extractLsb' 8 24 = 0#24 ∧ (BitVec.ofNat 32 b.toNat).extractLsb' 0 8 = b := by
  constructor <;> apply BitVec.eq_of_toNat_eq <;> simp [BitVec.extractLsb'_toNat, Nat.shiftRight_eq_div_pow] <;> omega

/-- The `OP` of a word that decodes is its instruction's opcode. -/
theorem opcode_of_decode {w : Command} {i : Instr} (h : decode w = .ok i) : opField w = i.opcode := by
  rw [decode] at h
  unfold decodeFields at h
  apply BitVec.eq_of_toNat_eq
  split at h
  case h_17 => cases h
  all_goals
    rename_i e
    rw [e]
    simp only [decodeN_eq_ok, decodeB_eq_ok, decodeW_eq_ok] at h
    first
      | (obtain ⟨-, h⟩ := h; subst h; rfl)
      | (subst h; rfl)

end Sys2Proof
end

