-- ==== Sys2Proof/Machine/Exchange.lean ====
section
/-! DEFINITION. The host's side that the spec describes beside the block: how a byte sequence is written (R77) and the phases of
one exchange (R163). The block holds none of this and no step depends on it (R4(b), R4(d), R4(e); log 11). -/

namespace Sys2Proof.Machine

/-- One byte as a pair of uppercase digits, the upper four bits first (R77). -/
def hexPair (b : Byte) : List Char := [b.extractLsb' 4 4, b.extractLsb' 0 4].map (fun d => digits.getD d.toNat '0')

/-- Pairs separated by one space. -/
def hexPairChars : List Byte → List Char
  | [] => []
  | [b] => hexPair b
  | b :: bs => hexPair b ++ ' ' :: hexPairChars bs

/-- A byte sequence as space-separated uppercase hex pairs (R77). -/
def hexPairs (bs : List Byte) : String := String.ofList (hexPairChars bs)

/-- The states of one exchange, in the document's names (R163). -/
inductive Phase where
  | idle
  | paramsValidated
  | frameBuilt
  | sent
  | responseReceived
  | validated
  | crcFailed
  | failed
deriving DecidableEq, Repr

/-- What the host sees that moves it from one state to the next (R162, R163). -/
inductive Observation where
  /-- `BUILD` answered this response word. -/
  | built (r : Word)
  /-- The transport's `write` of the eight bytes succeeded, or reported `TransportError`. -/
  | written (success : Bool)
  /-- What the transport's `read` returned is pushed, or it reported `TransportError`. -/
  | received (success : Bool)
  /-- `VERIFY` answered this response word. -/
  | judged (r : Word)
deriving DecidableEq, Repr

/-- The last states of an exchange, at which the host closes the transport; there is no retry (R163). -/
def Phase.terminal : Phase → Bool
  | .idle => false
  | .paramsValidated => false
  | .frameBuilt => false
  | .sent => false
  | .responseReceived => false
  | .validated => true
  | .crcFailed => true
  | .failed => true

/-- The states an observation takes the host through, in order; none where the observation does not belong to the state.
`BUILD` answering `OK` reaches two at once (R163). -/
def Phase.advance (p : Phase) (o : Observation) : List Phase :=
  match p, o with
  | .idle, .built r => if statField r = Status.ok.code then [.paramsValidated, .frameBuilt] else [.failed]
  | .frameBuilt, .written ok => if ok then [.sent] else [.failed]
  | .sent, .received ok => if ok then [.responseReceived] else [.failed]
  | .responseReceived, .judged r => if valueField r = 1#16 then [.validated] else [.crcFailed]
  | _, _ => []

/-- The states of an exchange after a first one, for a sequence of observations. -/
def Phase.trace (p : Phase) : List Observation → List Phase
  | [] => []
  | o :: os => p.advance o ++ Phase.trace ((p.advance o).getLastD p) os

end Sys2Proof.Machine
end

