-- ==== Sys2Proof/Tests/Slice0.lean ====
section
/-! SUPPORT. Tests: well-formedness, decoding of words written from 30_encoding.md, vectors of 95_test_vectors.md, one step per
command, and for each statement with hypotheses a witness that meets them, at boundary values. -/

namespace Sys2Proof.Tests

open Sys2Proof Sys2Proof.Machine

set_option maxRecDepth 20000

/-! ### Helpers -/

/-- The reset state with these parameter registers. -/
def withPar (a f s c : Nat) : State :=
  { State.reset with
    parAddr := BitVec.ofNat 32 a, parFunc := BitVec.ofNat 32 f, parStart := BitVec.ofNat 32 s, parCount := BitVec.ofNat 32 c }

/-- The reset state with these bytes in the TX space. -/
def withFrame (bs : List Byte) : State := { State.reset with txBuf := Memory.ofBytes 0 bs, txLen := BitVec.ofNat 4 bs.length }

/-- The reset state of a block with this `RX_CAP`, with these bytes in the RX space. -/
def withResponseOf (cap : Nat) (bs : List Byte) : State :=
  { State.resetFor (BitVec.ofNat 16 cap) with rxBuf := Memory.ofBytes 0 bs, rxLen := BitVec.ofNat 16 bs.length }

/-- The same with the default capacity. -/
def withResponse (bs : List Byte) : State := withResponseOf 100 bs

/-- The state a step answers, none where it stops. -/
def after : Result → Option State
  | .next t => some t
  | .fault _ => none
  | .refused _ => none

/-- The response word a step delivered last. -/
def answerOf (o : Result) : Option Word := (after o).bind (fun t => t.responses.getLast?)

/-- The request of S6. -/
def frame6 : List Byte := [0x01#8, 0x03#8, 0x00#8, 0x01#8, 0x00#8, 0x02#8]

/-- The request of S6 with its CRC. -/
def frame8 : List Byte := [0x01#8, 0x03#8, 0x00#8, 0x01#8, 0x00#8, 0x02#8, 0x95#8, 0xCB#8]

/-- The response of S8. -/
def response7 : List Byte := [0x01#8, 0x03#8, 0x02#8, 0x00#8, 0x0A#8, 0x38#8, 0x43#8]

/-! ### Well-formedness (R61 to R63, R75) -/

theorem test_wellFormed_refuses_operand_of_format_n : operandFits .n (some 0) = false ∧ operandFits .n none = true := by decide

theorem test_wellFormed_refuses_byte_operand :
    operandFits .b none = false ∧ operandFits .b (some 256) = false ∧ operandFits .b (some 255) = true := by decide

theorem test_wellFormed_refuses_word_operand :
    operandFits .w none = false ∧ operandFits .w (some 4294967296) = false ∧ operandFits .w (some 4294967295) = true := by decide

/-! ### Decoding: `OP` in binary above `IMM` (R60, R68; V6 for the illegal words) -/

theorem test_decode_crc :
    decode (0b00000001#8 ++ 0x00000000#32) = .ok .crcInit ∧
    decode (0b00000010#8 ++ 0x00000031#32) = .ok (.crcUpd 0x31#8) ∧
    decode (0b00000011#8 ++ 0x00000000#32) = .ok .crcRd := ⟨rfl, rfl, rfl⟩

theorem test_decode_builder :
    decode (0b00010000#8 ++ 0xFFFFFFFF#32) = .ok (.parAddr 4294967295#32) ∧
    decode (0b00010001#8 ++ 0x00000003#32) = .ok (.parFunc 3#32) ∧
    decode (0b00010010#8 ++ 0x0001E240#32) = .ok (.parStart 123456#32) ∧
    decode (0b00010011#8 ++ 0x0000007D#32) = .ok (.parCount 125#32) ∧
    decode (0b00010100#8 ++ 0x00000000#32) = .ok .build ∧
    decode (0b00010101#8 ++ 0x00000000#32) = .ok .attach ∧
    decode (0b00010110#8 ++ 0x00000000#32) = .ok .txLen ∧
    decode (0b00010111#8 ++ 0x00000007#32) = .ok (.txRd 7#8) := ⟨rfl, rfl, rfl, rfl, rfl, rfl, rfl, rfl⟩

theorem test_decode_validator_and_system :
    decode (0b00100000#8 ++ 0x00000000#32) = .ok .rxClr ∧
    decode (0b00100001#8 ++ 0x000000FF#32) = .ok (.rxPush 0xFF#8) ∧
    decode (0b00100010#8 ++ 0x00000000#32) = .ok .rxLen ∧
    decode (0b00100011#8 ++ 0x00000000#32) = .ok .verify ∧
    decode (0b11111111#8 ++ 0x00000000#32) = .ok .reset := ⟨rfl, rfl, rfl, rfl, rfl⟩

theorem test_decode_refuses_unassigned_op :
    [0x0000000000#40, 0x0400000000#40, 0x1800000000#40, 0x2400000000#40, 0xFE00000000#40].map (fun w => (decode w).toOption) =
      [none, none, none, none, none] := by decide

theorem test_decode_refuses_reserved_bits :
    [0x0100000001#40, 0x14FFFFFFFF#40, 0xFF80000000#40, 0x0200000100#40, 0x1700000107#40, 0x2180000000#40].map
      (fun w => (decode w).toOption) = [none, none, none, none, none, none] := by decide

theorem test_opcodeTable_match_and_mask :
    0x0200000031#40 &&& 0xFFFFFFFF00#40 = 0x0200000000#40 ∧ 0x120001E240#40 &&& 0xFF00000000#40 = 0x1200000000#40 := by decide

theorem test_decodeTableWord :
    decodeTableWord 40 0x0200000031 = some (.crcUpd 0x31#8) ∧ decodeTableWord 40 0x0200000100 = none := by decide

theorem test_withFetchWord_is_run_next :
    (after (step (State.reset.withFetchWord 40 0x0200000001))).map State.acc = some 0x807E#16 := by decide

/-! ### The functions: V1 to V5 -/

theorem test_crcShift_v1 :
    [0x0000#16, 0x0001#16, 0x0002#16, 0x8000#16, 0xA001#16, 0xFFFE#16, 0xFFFF#16, 0x1234#16, 0x0BC4#16].map crcShift =
      [0x0000#16, 0xA001#16, 0x0001#16, 0x4000#16, 0xF001#16, 0x7FFF#16, 0xDFFE#16, 0x091A#16, 0x05E2#16] := by decide

theorem test_crcByte_v2 :
    [crcByte 0x0001#16 0x01#8, crcByte 0xFFFF#16 0x00#8, crcByte 0x8000#16 0x00#8, crcByte 0xA001#16 0x00#8,
      crcByte 0x1234#16 0x56#8, crcByte 0x807E#16 0x03#8, crcByte 0x0BC4#16 0xC4#8, crcByte 0x000B#16 0x0B#8] =
      [0x0000#16, 0x40BF#16, 0x0080#16, 0xC061#16, 0xE993#16, 0x2140#16, 0x000B#16, 0x0000#16] := by decide

theorem test_crcTable_v2 :
    [0x00#8, 0x01#8, 0x02#8, 0x03#8, 0x80#8, 0xFF#8].map crcTable =
      [0x0000#16, 0xC0C1#16, 0xC181#16, 0x0140#16, 0xA001#16, 0x4040#16] := by decide

/-- The catalogue check value: the CRC of the ASCII digits 1 to 9. -/
theorem test_computeCrc_check_value :
    computeCrc [0x31#8, 0x32#8, 0x33#8, 0x34#8, 0x35#8, 0x36#8, 0x37#8, 0x38#8, 0x39#8] = 0x4B37#16 := by decide

theorem test_computeCrc_v3 :
    [[], [0xFF#8], [0x00#8, 0x00#8], [0x01#8, 0x83#8, 0x02#8], [0x11#8, 0x03#8, 0x00#8, 0x6B#8, 0x00#8, 0x03#8],
      [0xFF#8, 0xFF#8, 0xFF#8, 0xFF#8, 0x00#8, 0x7D#8]].map computeCrc =
      [0xFFFF#16, 0x00FF#16, 0xB001#16, 0xF1C0#16, 0x8776#16, 0x05C0#16] := by decide

/-- The polynomial of R88: `0xA001` is `0x8005` with its bits reversed. -/
theorem test_polynomial_reversed : BitVec.reverse 0x8005#16 = 0xA001#16 := by decide

theorem test_checkParams_v4 :
    [checkParams 255 255 65535 125, checkParams 0 0 0 1, checkParams 256 3 0 126, checkParams 1 300 70000 0,
      checkParams 1 3 65536 2, checkParams 1 3 0 0, checkParams 1 3 0 126] =
      [.valid, .valid, .outOfRange 0, .outOfRange 1, .outOfRange 2, .outOfRange 3, .outOfRange 3] := by decide

theorem test_attachCrc_v4 :
    attachCrc (buildRequest 255#32 255#32 65535#32 125#32) =
      [0xFF#8, 0xFF#8, 0xFF#8, 0xFF#8, 0x00#8, 0x7D#8, 0xC0#8, 0x05#8] ∧
    buildRequest 1#32 3#32 0x1234#32 1#32 = [0x01#8, 0x03#8, 0x12#8, 0x34#8, 0x00#8, 0x01#8] := by decide

theorem test_verify_v5 :
    [[], [0x00#8], [0xFF#8, 0xFF#8], [0x01#8, 0x7E#8, 0x80#8], [0x00#8, 0x00#8, 0x00#8],
      [0x01#8, 0x03#8, 0x02#8, 0x00#8, 0x0A#8, 0x43#8, 0x38#8],
      [0x01#8, 0x03#8, 0x02#8, 0x00#8, 0x0A#8, 0x38#8, 0x43#8, 0x00#8]].map verifyBytes =
      [false, false, false, true, false, false, true] := by decide

theorem test_payloadOf_v5 :
    payloadOf [0x01#8, 0x83#8, 0x02#8, 0xC0#8, 0xF1#8] = some [] ∧ payloadOf [0xFF#8, 0xFF#8] = none ∧
    payloadOf [0x01#8, 0x03#8, 0x00#8, 0x01#8, 0x00#8, 0x02#8, 0x95#8, 0xCB#8] = some [0x01#8, 0x00#8, 0x02#8] := by decide

/-- R8 and R23: 7 bits at the default, and as many as hold the capacity at the ends of the range and about 128. -/
theorem test_rxLenWidth_r23 :
    [0#16, 1#16, 100#16, 127#16, 128#16, 65535#16].map rxLenWidth = [1, 1, 7, 7, 8, 16] := by decide

/-! ### The assembler's text (R75, R76) -/

theorem test_assembleLine_command_with_comment : assembleLine "CRC.UPD 0x31 ; one byte" = some [.crcUpd 0x31#8] := by decide

theorem test_assembleLine_refuses_operand_too_large :
    assembleLine "CRC.UPD 256" = none ∧ assembleLine "BUILD 0" = none ∧ assembleLine "PAR.ADDR 4294967296" = none := by decide

theorem test_assembleLine_digits :
    assembleLine "RX.PUSH 0x7d" = some [.rxPush 125#8] ∧ assembleLine "RX.PUSH 99" = some [.rxPush 99#8] ∧
    assembleLine "RX.PUSH 7D" = none ∧ assembleLine "RX.PUSH 0x" = none := by decide

theorem test_assembleLine_request :
    assembleLine "REQUEST 1 3 0x0001 2" =
      some [.parAddr 1#32, .parFunc 3#32, .parStart 1#32, .parCount 2#32, .build, .attach] := by decide

/-! ### The host's side (R77, R163) -/

theorem test_hexPairs_r77 :
    hexPairs [0x01#8, 0x03#8, 0x00#8, 0x00#8, 0x00#8, 0x02#8, 0xC4#8, 0x0B#8] = "01 03 00 00 00 02 C4 0B" := by decide

theorem test_exchange_phases :
    Phase.trace .idle [.built 0x00000000#32, .written true, .received true, .judged 0x00000001#32] =
      [.paramsValidated, .frameBuilt, .sent, .responseReceived, .validated] ∧
    Phase.trace .idle [.built 0x13000000#32, .written true] = [.failed] ∧
    Phase.trace .responseReceived [.judged 0x00000000#32] = [.crcFailed] := by decide

/-! ### One step of each command (95_test_vectors.md part 3, V6, V7) -/

theorem test_crcInit : answerOf (exec .crcInit (withPar 1 3 0 2)) = some 0x00000000#32 := by decide

theorem test_crcUpd : (after (exec (.crcUpd 0x01#8) State.reset)).map State.acc = some 0x807E#16 := by decide

theorem test_crcRd : answerOf (exec .crcRd { State.reset with acc := 0x0BC4#16 }) = some 0x00000BC4#32 := by decide

theorem test_parAddr_takes_any_word :
    (after (exec (.parAddr 4294967295#32) State.reset)).map State.parAddr = some 4294967295#32 := by decide

theorem test_parFunc : (after (exec (.parFunc 3#32) State.reset)).map State.parFunc = some 3#32 := by decide

theorem test_parStart : (after (exec (.parStart 65536#32) State.reset)).map State.parStart = some 65536#32 := by decide

theorem test_parCount : (after (exec (.parCount 125#32) State.reset)).map State.parCount = some 125#32 := by decide

theorem test_build_packs :
    (after (exec .build (withPar 1 3 1 2))).map (fun t => (t.txBuf.bytes, t.txLen)) = some (frame6, 6#4) := by decide

theorem test_build_reports_lowest_field :
    [withPar 256 3 0 126, withPar 1 256 0 2, withPar 1 3 65536 2, withPar 1 3 0 126].map (fun s => answerOf (exec .build s)) =
      [some 0x10000000#32, some 0x11000000#32, some 0x12000000#32, some 0x13000000#32] := by decide

theorem test_attach_appends :
    (after (exec .attach (withFrame frame6))).map (fun t => (t.txBuf.bytes, t.txLen, t.acc)) = some (frame8, 8#4, 0xFFFF#16) := by
  decide

theorem test_attach_rejects_without_frame_and_twice :
    answerOf (exec .attach State.reset) = some 0x30000000#32 ∧ answerOf (exec .attach (withFrame frame8)) = some 0x30000000#32 := by
  decide

theorem test_txLen : answerOf (exec .txLen (withFrame frame8)) = some 0x00000008#32 := by decide

theorem test_txRd_last_byte : answerOf (exec (.txRd 7#8) (withFrame frame8)) = some 0x000000CB#32 := by decide

theorem test_txRd_rejects :
    answerOf (exec (.txRd 6#8) (withFrame frame6)) = some 0x40000000#32 ∧
    answerOf (exec (.txRd 255#8) (withFrame frame8)) = some 0x40000000#32 := by decide

theorem test_rxClr : (after (exec .rxClr (withResponse response7))).map State.rxLen = some 0#16 := by decide

theorem test_rxPush_appends :
    (after (exec (.rxPush 0x43#8) (withResponse (response7.take 6)))).map (fun t => (t.rxBuf.bytes, t.rxLen)) =
      some (response7, 7#16) := by decide

theorem test_rxPush_full :
    answerOf (exec (.rxPush 0x00#8) (withResponse (List.replicate 100 0x00#8))) = some 0x50000000#32 := by decide

/-- P6 with another capacity: above 127 bytes the length goes on, and with capacity 0 every push is `BufferFull` (R8, R23). -/
theorem test_rxPush_other_capacity :
    (after (exec (.rxPush 0x00#8) (withResponseOf 200 (List.replicate 127 0x00#8)))).map State.rxLen = some 128#16 ∧
    answerOf (exec (.rxPush 0x00#8) (withResponseOf 0 [])) = some 0x50000000#32 ∧
    answerOf (exec (.rxPush 0x00#8) { State.resetFor 65535#16 with rxLen := 65535#16 }) = some 0x50000000#32 := by decide

theorem test_rxLen : answerOf (exec .rxLen (withResponse response7)) = some 0x00000007#32 := by decide

theorem test_verify_good : answerOf (exec .verify (withResponse response7)) = some 0x00000001#32 := by decide

theorem test_verify_tampered_short_empty :
    answerOf (exec .verify (withResponse [0x01#8, 0x03#8, 0x02#8, 0x00#8, 0x0B#8, 0x38#8, 0x43#8])) = some 0x00000000#32 ∧
    answerOf (exec .verify (withResponse [0xFF#8, 0xFF#8])) = some 0x00000000#32 ∧
    answerOf (exec .verify State.reset) = some 0x00000000#32 := by decide

theorem test_reset :
    after (exec .reset { withFrame frame8 with acc := 0x4B37#16, parCount := 2#32 }) =
      some { State.reset with responses := [0x00000000#32] } := by decide

theorem test_illegal_word_changes_nothing :
    after (step { withFrame frame8 with host := [.command 0xFF80000000#40] }) =
      some { withFrame frame8 with responses := [0x20000000#32] } := by decide

theorem test_step_with_nothing_to_do : step State.reset = .next State.reset := rfl

/-! ### Witnesses: states and operands that meet the hypotheses of each statement -/

theorem test_witness_EncodeOfDecode : decode 0x130000007D#40 = .ok (.parCount 125#32) := rfl

theorem test_witness_DecodeFollowsOpcodeTable :
    ⟨"CRC.UPD", 0x0200000000#40, 0xFFFFFFFF00#40⟩ ∈ opcodeTable ∧ 0x02000000FF#40 &&& 0xFFFFFFFF00#40 = 0x0200000000#40 ∧
    ⟨"RESET", 0xFF00000000#40, 0xFFFFFFFFFF#40⟩ ∈ opcodeTable ∧ 0xFF00000000#40 &&& 0xFFFFFFFFFF#40 = 0xFF00000000#40 := by
  decide

theorem test_witness_DecodeOperands :
    (decode 0xFF00000000#40 = .ok .reset ∧ Instr.format .reset = .n) ∧
    (decode 0x21000000FF#40 = .ok (.rxPush 255#8) ∧ (Instr.rxPush 255#8).format = .b) ∧
    (decode 0x10FFFFFFFF#40 = .ok (.parAddr 4294967295#32) ∧ (Instr.parAddr 4294967295#32).format = .w) :=
  ⟨⟨rfl, rfl⟩, ⟨rfl, rfl⟩, ⟨rfl, rfl⟩⟩

theorem test_witness_IllegalWordsAnswerIllegalCommand :
    (∀ i, decode 0x0000000000#40 ≠ .ok i) ∧ (∀ i, decode 0xFFFFFFFFFF#40 ≠ .ok i) ∧ (∀ i, decode 0x0200000100#40 ≠ .ok i) := by
  refine ⟨fun i h => ?_, fun i h => ?_, fun i h => ?_⟩ <;> cases h

theorem test_witness_StepRunsDecodedInstruction :
    decode 0x1700000007#40 = .ok (.txRd 7#8) ∧ (Instr.txRd 7#8).wellFormed = true := ⟨rfl, by decide⟩

theorem test_witness_EveryCommandGetsOneResponseWord :
    (after (step State.reset)).isSome ∧ (after (step { State.reset with host := [.reset] })).isSome ∧
    answerOf (step { State.reset with host := [.command 0x1400000000#40] }) = some 0x13000000#32 ∧
    answerOf (step { State.reset with host := [.command 0x0300000000#40] }) = some 0x0000FFFF#32 := by decide

theorem inv_reset : State.reset.Inv := ⟨⟨⟨rfl, rfl⟩, .inl rfl⟩, ⟨rfl, rfl⟩, by decide⟩

theorem inv_frame6 : (withFrame frame6).Inv :=
  ⟨⟨⟨rfl, rfl⟩, .inr (.inl ⟨rfl, 1#32, 3#32, 1#32, 2#32, rfl, rfl⟩)⟩, ⟨rfl, rfl⟩, by decide⟩

theorem inv_frame8 : (withFrame frame8).Inv :=
  ⟨⟨⟨rfl, rfl⟩, .inr (.inr ⟨rfl, frame6, ⟨1#32, 3#32, 1#32, 2#32, rfl, rfl⟩, by decide⟩)⟩, ⟨rfl, rfl⟩, by decide⟩

theorem inv_response100 : (withResponse (List.replicate 100 0x00#8)).Inv :=
  ⟨⟨⟨rfl, rfl⟩, .inl rfl⟩, ⟨rfl, rfl⟩, by decide⟩

theorem test_witness_CrcStreamComputesCrc :
    (withFrame frame6).Inv ∧ (Instr.crcInit = .crcInit ∨ Instr.crcInit = .reset) ∧
    .crcInit ∉ [Instr.crcUpd 0x31#8, .attach, .crcUpd 0x32#8] ∧ .crcRd ∉ [Instr.crcUpd 0x31#8, .attach, .crcUpd 0x32#8] ∧
    .reset ∉ [Instr.crcUpd 0x31#8, .attach, .crcUpd 0x32#8] := ⟨inv_frame6, by decide⟩

theorem test_witness_BuildRequestPacksFields :
    checkParams 255 255 65535 125 = .valid ∧ checkParams 0 0 0 1 = .valid := by decide

theorem test_witness_AttachCrcAppendsLowByteFirst : frame6.length = 6 := rfl

/-- One state per clause, each with the bounds of its ranges met. -/
theorem test_witness_BuildPacksOrRejects :
    (withPar 255 255 65535 125).txBuf.wf ∧
    ((withPar 255 255 65535 125).parAddr.toNat ≤ 255 ∧ (withPar 255 255 65535 125).parFunc.toNat ≤ 255 ∧
      (withPar 255 255 65535 125).parStart.toNat ≤ 65535 ∧ 1 ≤ (withPar 255 255 65535 125).parCount.toNat ∧
      (withPar 255 255 65535 125).parCount.toNat ≤ 125) ∧
    255 < (withPar 256 0 0 0).parAddr.toNat ∧
    ((withPar 255 256 0 0).parAddr.toNat ≤ 255 ∧ 255 < (withPar 255 256 0 0).parFunc.toNat) ∧
    ((withPar 255 255 65536 0).parAddr.toNat ≤ 255 ∧ (withPar 255 255 65536 0).parFunc.toNat ≤ 255 ∧
      65535 < (withPar 255 255 65536 0).parStart.toNat) ∧
    ((withPar 255 255 65535 126).parAddr.toNat ≤ 255 ∧ (withPar 255 255 65535 126).parFunc.toNat ≤ 255 ∧
      (withPar 255 255 65535 126).parStart.toNat ≤ 65535 ∧ 125 < (withPar 255 255 65535 126).parCount.toNat) ∧
    (withPar 0 0 0 0).parCount.toNat < 1 := by decide

theorem test_witness_AttachAppendsCrcOrRejects :
    ((withFrame frame6).txLen = 6#4 ∧ frame6.length = 6 ∧ (withFrame frame6).txBuf = Memory.ofBytes 0 frame6) ∧
    (withFrame frame8).txLen ≠ 6#4 ∧ State.reset.txLen ≠ 6#4 := by decide

theorem test_witness_LengthCommandsAnswerLengths : (withFrame frame8).Inv ∧ (withResponse (List.replicate 100 0x00#8)).Inv :=
  ⟨inv_frame8, inv_response100⟩

/-- Both clauses at the length they meet at, for each of the three lengths. -/
theorem test_witness_TxRdAnswersByteOrRejects :
    (withFrame frame6).Inv ∧ (5#8).toNat < (withFrame frame6).txLen.toNat ∧ (withFrame frame6).txLen.toNat ≤ (6#8).toNat ∧
    (withFrame frame8).Inv ∧ (7#8).toNat < (withFrame frame8).txLen.toNat ∧ (withFrame frame8).txLen.toNat ≤ (8#8).toNat ∧
    State.reset.Inv ∧ State.reset.txLen.toNat ≤ (0#8).toNat :=
  ⟨inv_frame6, by decide, by decide, inv_frame8, by decide, by decide, inv_reset, by decide⟩

theorem test_witness_RequestSequenceBuildsFrame :
    State.reset.Inv ∧ checkParams 255 255 65535 125 = .valid ∧ checkParams 256 0 0 1 = .outOfRange 0 ∧
    checkParams 0 256 0 1 = .outOfRange 1 ∧ checkParams 0 0 65536 1 = .outOfRange 2 ∧ checkParams 0 0 0 126 = .outOfRange 3 ∧
    (withFrame frame6).Inv ∧ (withFrame frame6).txLen = 6#4 := ⟨inv_reset, rfl, rfl, rfl, rfl, rfl, inv_frame6, rfl⟩

theorem test_witness_RequestFrameVerifies :
    checkParams (0#32).toNat (0#32).toNat (0#32).toNat (1#32).toNat = .valid := rfl

theorem test_witness_VerifyComparesBodyCrc :
    [0xFF#8, 0xFF#8].length ≤ 2 ∧ [0x00#8] ≠ [] ∧ verifyBytes ([0x00#8] ++ [0xBF#8, 0x40#8]) = true := by decide

theorem test_witness_VerifyIsZeroResidue : 2 < [0x00#8, 0xBF#8, 0x40#8].length := by decide

/-- The shortest frame at its first bit, the worked frame at its last. -/
theorem test_witness_SingleBitFlipFailsVerify :
    (verifyBytes [0x00#8, 0xBF#8, 0x40#8] = true ∧ 0 < [0x00#8, 0xBF#8, 0x40#8].length ∧ 0 < 8) ∧
    (verifyBytes response7 = true ∧ 6 < response7.length ∧ 7 < 8) := by decide

theorem test_witness_PayloadIsMiddleOfVerifiedFrame :
    verifyBytes [0xFF#8, 0xFF#8] = false ∧
    verifyBytes ([0x01#8, 0x03#8, 0x02#8] ++ [0x00#8, 0x0A#8] ++ [0x38#8, 0x43#8]) = true ∧
    verifyBytes ([0x01#8, 0x83#8, 0x02#8] ++ [] ++ [0xC0#8, 0xF1#8]) = true ∧
    (verifyBytes [0x00#8, 0xBF#8, 0x40#8] = true ∧ [0x00#8, 0xBF#8, 0x40#8].length = 3) ∧
    (verifyBytes [0x00#8, 0x00#8, 0x01#8, 0xB0#8] = true ∧ [0x00#8, 0x00#8, 0x01#8, 0xB0#8].length = 4) := by decide

theorem test_witness_RxPushAppendsOrRejects :
    ((withResponse (List.replicate 99 0x00#8)).rxBuf = Memory.ofBytes 0 (List.replicate 99 0x00#8) ∧
      (List.replicate 99 0x00#8).length = (withResponse (List.replicate 99 0x00#8)).rxLen.toNat ∧
      (withResponse (List.replicate 99 0x00#8)).rxLen.toNat <
        (withResponse (List.replicate 99 0x00#8)).rxCap.toNat) ∧
    (withResponse (List.replicate 100 0x00#8)).rxLen = (withResponse (List.replicate 100 0x00#8)).rxCap := by decide

theorem test_witness_VerifyAnswersValidity :
    ((withResponse response7).rxBuf = Memory.ofBytes 0 response7 ∧ response7.length = (withResponse response7).rxLen.toNat ∧
      (withResponse response7).rxLen.toNat ≤ (withResponse response7).rxCap.toNat ∧ verifyBytes response7 = true) ∧
    (State.reset.rxBuf = Memory.ofBytes 0 [] ∧ [].length (α := Byte) = State.reset.rxLen.toNat ∧
      State.reset.rxLen.toNat ≤ State.reset.rxCap.toNat ∧
      verifyBytes [] = false) := by decide

theorem test_witness_ErrorsChangeNothing :
    answerOf (runCommand 0x2400000000#40 State.reset) = some 0x20000000#32 ∧
    answerOf (runCommand 0x1500000000#40 State.reset) = some 0x30000000#32 := by decide

theorem test_witness_ErrorsComeFromTheirCommands :
    (after (exec .build (withPar 1 3 0 126))).map State.responses = some (State.reset.responses ++ [0x13000000#32]) ∧
    checkParams 1 3 0 126 = .outOfRange 3 ∧
    (after (exec .attach (withFrame frame8))).map State.responses = some ((withFrame frame8).responses ++ [0x30000000#32]) ∧
    (after (exec (.txRd 6#8) (withFrame frame6))).map State.responses = some ((withFrame frame6).responses ++ [0x40000000#32]) ∧
    (after (exec (.rxPush 0#8) (withResponse (List.replicate 100 0x00#8)))).map State.responses =
      some ((withResponse (List.replicate 100 0x00#8)).responses ++ [0x50000000#32]) := by decide

theorem test_witness_ReadsAreFreeAndWritesIdempotent :
    (after (exec (.txRd 5#8) (withFrame frame6))).isSome ∧ (after (exec .verify (withResponse response7))).isSome ∧
    (withPar 1 3 1 2).txBuf.wf ∧ (after (exec .build (withPar 1 3 1 2))).isSome ∧
    (after (exec (.parCount 126#32) State.reset)).isSome ∧
    (withFrame frame6).txLen = 6#4 ∧ (after (exec .attach (withFrame frame6))).isSome := by decide

theorem test_witness_AccumulatorIsPrivateToCrcCommands :
    (∀ b, Instr.attach ≠ .crcUpd b) ∧ Instr.attach ∉ [Instr.crcInit, .crcRd, .reset] ∧
    (after (exec .attach (withFrame frame6))).isSome := ⟨fun _ h => (by cases h), by decide, by decide⟩

theorem test_witness_ParametersAreReadByBuildOnly :
    (Instr.build ≠ .reset ∧ ∀ v, Instr.build ≠ .parAddr v) ∧ (after (exec .build (withPar 1 3 1 2))).isSome ∧
    Instr.attach ∉ [Instr.build, .reset] ∧ (∀ v, Instr.attach ∉ [Instr.parAddr v, .parFunc v, .parStart v, .parCount v]) ∧
    (after (exec .attach (withFrame frame6))).isSome := by
  refine ⟨⟨by decide, fun _ h => by cases h⟩, by decide, by decide, fun v h => ?_, by decide⟩
  simp at h

/-- A TX space with one byte above `TXLEN` and an RX space with one above `RXLEN`. -/
theorem test_witness_BytesBeyondLengthAreUnobservable :
    (∀ a, a < (withFrame frame6).txLen.toNat →
      (Memory.ofBytes 0 (frame6 ++ [0x99#8])).read a = (withFrame frame6).txBuf.read a) ∧
    (∀ a, a < (withFrame frame6).rxLen.toNat → Memory.read [(3, 0x11#8)] a = (withFrame frame6).rxBuf.read a) ∧
    (after (exec (.txRd 5#8) (withFrame frame6))).map State.responses = some ((withFrame frame6).responses ++ [0x00000002#32]) := by
  decide

theorem test_witness_CommandsDoNotReadThePorts : (after (exec .crcRd State.reset)).isSome := by decide

theorem test_witness_StepKeepsInvariants :
    (withFrame frame6).Inv ∧ (after (step { withFrame frame6 with host := [.command 0x1500000000#40] })).isSome ∧
    (withResponse (List.replicate 100 0x00#8)).Inv :=
  ⟨inv_frame6, by decide, inv_response100⟩

theorem test_witness_StepNeverStops : (withFrame frame8).Inv := inv_frame8

/-- A stream that has absorbed one byte, before `CRC.UPD`, `CRC.INIT`, an illegal word and a reset event. -/
theorem test_witness_AccumulatorIsCrcOfBytesSinceInit :
    ({ State.reset with acc := 0x807E#16 }).acc = computeCrc [0x01#8] ∧
    [HostEvent.command 0x0200000003#40, .command 0x0100000000#40, .command 0x0100000001#40, .reset].map
      (fun e => (after (step { State.reset with acc := 0x807E#16, host := [e] })).map State.acc) =
      [some 0x2140#16, some 0xFFFF#16, some 0x807E#16, some 0xFFFF#16] := by decide

theorem test_witness_StepKeepsCanonicalMemory :
    (withFrame frame6).txBuf.wf ∧ (withFrame frame6).rxBuf.wf ∧
    (after (step { withFrame frame6 with host := [.command 0x1500000000#40] })).isSome := by decide

theorem test_witness_FrameOfCommandsThatStoreNoByte :
    Instr.txRd 7#8 ∉ [Instr.build, .attach, .rxClr, .reset] ∧ (∀ b, Instr.txRd 7#8 ≠ .rxPush b) ∧
    (after (exec (.txRd 7#8) (withFrame frame8))).isSome := ⟨by decide, fun _ h => (by cases h), by decide⟩

theorem test_witness_FrameOfBuildAndAttach :
    ((after (exec .build (withPar 1 3 0 126))).isSome ∧ checkParams 1 3 0 126 ≠ .valid) ∧
    ((after (exec .build (withPar 1 3 0 125))).isSome ∧ checkParams 1 3 0 125 = .valid) ∧
    ((after (exec .attach (withFrame frame8))).isSome ∧ (withFrame frame8).txLen ≠ 6#4) ∧
    ((after (exec .attach (withFrame frame6))).isSome ∧ (withFrame frame6).txLen = 6#4) := by decide

theorem test_witness_FrameOfRxPush :
    (State.reset.RxInv ∧ (after (exec (.rxPush 1#8) State.reset)).isSome ∧ State.reset.rxLen.toNat < State.reset.rxCap.toNat) ∧
    ((withResponse (List.replicate 100 0x00#8)).RxInv ∧
      (after (exec (.rxPush 1#8) (withResponse (List.replicate 100 0x00#8)))).isSome ∧
      (withResponse (List.replicate 100 0x00#8)).rxLen = (withResponse (List.replicate 100 0x00#8)).rxCap) :=
  ⟨⟨inv_reset.2, by decide, by decide⟩, inv_response100.2, by decide, by decide⟩

theorem test_witness_FrameOfRxClrAndReset :
    (after (exec .rxClr (withResponse response7))).isSome ∧ (after (exec .reset (withFrame frame8))).isSome := by decide

end Sys2Proof.Tests
end

/-! SUPPORT. Runs of encoded commands: an encoded command decodes to itself, a step on it executes it, and runs compose. -/

namespace Sys2Proof

/-- Every instruction's word decodes to the instruction (R60 to R64, R68). -/
@[simp] theorem decode_encode (i : Instr) : decode (encode i) = .ok i := by
  rw [decode, opField_encode, immField_encode]
  cases i with
  | crcInit | crcRd | build | attach | txLen | rxClr | rxLen | verify | reset =>
    exact decodeN_eq_ok.mpr ⟨rfl, rfl⟩
  | crcUpd b | txRd b | rxPush b =>
    obtain ⟨hreserved, hbyte⟩ := low_byte_of_ofNat b
    exact decodeB_eq_ok.mpr ⟨hreserved, congrArg _ hbyte⟩
  | parAddr v | parFunc v | parStart v | parCount v =>
    exact decodeW_eq_ok.mpr (congrArg _ ((BitVec.ofNat_toNat 32 v).trans (BitVec.setWidth_eq v)))

end Sys2Proof

namespace Sys2Proof.Machine

/-- A program's first event is its first command's word. -/
@[simp] theorem hostProgram_cons (i : Instr) (is : List Instr) :
    hostProgram (i :: is) = .command (encode i) :: hostProgram is := rfl

@[simp] theorem hostProgram_nil : hostProgram [] = [] := rfl

@[simp] theorem hostProgram_append (is js : List Instr) : hostProgram (is ++ js) = hostProgram is ++ hostProgram js :=
  List.map_append

/-- A step on an encoded command executes it. -/
theorem step_encode (s : State) (i : Instr) (rest : List HostEvent) :
    step { s with host := .command (encode i) :: rest } = exec i { s with host := rest } := by
  rw [step_cons, runEvent, runCommand, decode_encode]

/-- A run goes on from where a first part of it ended. -/
theorem runSteps_add {m : Nat} {s t : State} (n : Nat) (h : runSteps m s = .next t) :
    runSteps (m + n) s = runSteps n t := by
  induction m generalizing s with
  | zero =>
    cases h
    rw [Nat.zero_add]
  | succ m ih =>
    rw [runSteps] at h
    rw [Nat.succ_add, runSteps]
    cases hs : step s with
    | next u => exact ih (by simpa [hs] using h)
    | fault f => simp [hs] at h
    | refused f => simp [hs] at h

end Sys2Proof.Machine

/-! SUPPORT and O39. Runs of `RX.PUSH`: while there is room every byte is kept, at `RX_CAP` every push is rejected, and any
run of pushes is one of the first kind followed by one of the second. -/

namespace Sys2Proof.Machine

/-- `RX.PUSH` on a buffer that holds `bytes` and has room appends its byte (R126). -/
theorem exec_rxPush_room {s : State} {bytes : List Byte} (b : Byte) (hbuf : s.rxBuf = Memory.ofBytes 0 bytes)
    (hlen : bytes.length = s.rxLen.toNat) (hroom : s.rxLen.toNat < s.rxCap.toNat) :
    exec (.rxPush b) s = .next { s with
      rxBuf := Memory.ofBytes 0 (bytes ++ [b]), rxLen := BitVec.ofNat 16 (s.rxLen.toNat + 1)
      responses := s.responses ++ [0x00000000#32] } := by
  have hsucc : (s.rxLen + 1#16).toNat = bytes.length + 1 := by
    have := s.rxCap.isLt
    rw [BitVec.toNat_add, hlen]
    exact Nat.mod_eq_of_lt (by simp; omega)
  have hkeep : rxLenBits s.rxCap (s.rxLen + 1#16) = s.rxLen + 1#16 := rxLenBits_of_le (by omega)
  have hlast : (s.rxBuf.write s.rxLen.toNat b).truncate (bytes.length + 1) = Memory.ofBytes 0 (bytes ++ [b]) := by
    rw [hbuf, ← hlen, Memory.write_ofBytes_length, Memory.truncate_ofBytes, List.take_of_length_le (by simp)]
  have hnum : s.rxLen + 1#16 = BitVec.ofNat 16 (s.rxLen.toNat + 1) := by simp [BitVec.ofNat_add]
  rw [exec, execRxPush_room hroom, State.setRxLen, State.setBuf_rx_rxCap, State.setBuf_rx_rxBuf, hkeep, hsucc, hlast, hnum,
    okWord_zero]
  rfl

/-- `RX.PUSH` at `RX_CAP` delivers `BufferFull` and changes nothing else (R126, R155). -/
theorem exec_rxPush_full {s : State} (b : Byte) (hfull : s.rxLen = s.rxCap) :
    exec (.rxPush b) s = .next { s with responses := s.responses ++ [0x50000000#32] } := by
  rw [exec, execRxPush_full hfull, errorWord_bufferFull]
  rfl

/-- A run of pushes that all fit keeps every byte in order. -/
theorem runSteps_rxPush_room {s : State} {bytes : List Byte} (r : List Byte) (rest : List HostEvent)
    (hbuf : s.rxBuf = Memory.ofBytes 0 bytes) (hlen : bytes.length = s.rxLen.toNat)
    (hroom : s.rxLen.toNat + r.length ≤ s.rxCap.toNat) :
    runSteps r.length { s with host := hostProgram (r.map .rxPush) ++ rest } = .next { s with
      rxBuf := Memory.ofBytes 0 (bytes ++ r), rxLen := BitVec.ofNat 16 (s.rxLen.toNat + r.length), host := rest
      responses := s.responses ++ List.replicate r.length 0x00000000#32 } := by
  induction r generalizing s bytes with
  | nil => simp [← hbuf]
  | cons b r ih =>
    rw [List.length_cons] at hroom
    have hlt : s.rxLen.toNat < s.rxCap.toNat := by omega
    have hnum : (BitVec.ofNat 16 (s.rxLen.toNat + 1)).toNat = s.rxLen.toNat + 1 := by
      have := s.rxCap.isLt
      exact Nat.mod_eq_of_lt (by omega)
    have hstep := (step_encode s (.rxPush b) (hostProgram (r.map .rxPush) ++ rest)).trans
      (exec_rxPush_room b hbuf hlen hlt)
    have hrun := ih (s := { s with
        rxBuf := Memory.ofBytes 0 (bytes ++ [b]), rxLen := BitVec.ofNat 16 (s.rxLen.toNat + 1)
        responses := s.responses ++ [0x00000000#32] }) (bytes := bytes ++ [b]) rfl
      (by simp [hnum, hlen]) (by simp only [hnum]; omega)
    rw [List.length_cons, List.map_cons, hostProgram_cons, List.cons_append, runSteps_succ hstep]
    simpa [hnum, List.replicate_succ, Nat.add_assoc, Nat.add_comm 1] using hrun

/-- A run of pushes at `RX_CAP` is rejected push by push and changes nothing. -/
theorem runSteps_rxPush_full {s : State} (r : List Byte) (rest : List HostEvent) (hfull : s.rxLen = s.rxCap) :
    runSteps r.length { s with host := hostProgram (r.map .rxPush) ++ rest } = .next { s with
      host := rest, responses := s.responses ++ List.replicate r.length 0x50000000#32 } := by
  induction r generalizing s with
  | nil => simp
  | cons b r ih =>
    have hstep := (step_encode s (.rxPush b) (hostProgram (r.map .rxPush) ++ rest)).trans (exec_rxPush_full b hfull)
    have hrun := ih (s := { s with responses := s.responses ++ [0x50000000#32] }) hfull
    rw [List.length_cons, List.map_cons, hostProgram_cons, List.cons_append, runSteps_succ hstep]
    simpa [List.replicate_succ] using hrun

/-- A run of pushes into an empty buffer, of any capacity: the bytes up to `RX_CAP` are kept, those beyond are rejected. -/
theorem runSteps_rxPush_of_empty {s : State} (r : List Byte) (rest : List HostEvent) (hbuf : s.rxBuf = [])
    (hlen : s.rxLen = 0#16) :
    runSteps r.length { s with host := hostProgram (r.map .rxPush) ++ rest } = .next { s with
      rxBuf := Memory.ofBytes 0 (r.take s.rxCap.toNat), rxLen := BitVec.ofNat 16 (min r.length s.rxCap.toNat), host := rest
      responses := s.responses ++ List.replicate (min r.length s.rxCap.toNat) 0x00000000#32 ++
        List.replicate (r.length - s.rxCap.toNat) 0x50000000#32 } := by
  rcases Nat.le_total r.length s.rxCap.toNat with hfits | hover
  · have hrun := runSteps_rxPush_room (bytes := []) r rest hbuf (by simp [hlen]) (by simpa [hlen] using hfits)
    simpa [hlen, hfits, List.take_of_length_le hfits, Nat.sub_eq_zero_of_le hfits] using hrun
  · obtain ⟨kept, beyond, rfl, hcap⟩ : ∃ kept beyond, r = kept ++ beyond ∧ kept.length = s.rxCap.toNat :=
      ⟨r.take s.rxCap.toNat, r.drop s.rxCap.toNat, (List.take_append_drop ..).symm, List.length_take_of_le hover⟩
    have hfill := runSteps_rxPush_room (bytes := []) kept (hostProgram (beyond.map .rxPush) ++ rest) hbuf (by simp [hlen])
      (by simp [hlen, hcap])
    have hreject := runSteps_rxPush_full (s := { s with
        rxBuf := Memory.ofBytes 0 kept, rxLen := s.rxCap
        responses := s.responses ++ List.replicate s.rxCap.toNat 0x00000000#32 }) beyond rest rfl
    rw [List.length_append, List.map_append, hostProgram_append, List.append_assoc, runSteps_add _ hfill]
    simpa [hlen, hcap] using hreject

/-- Settles O39: after reset the buffer is empty, whatever its capacity. -/
theorem rxPushForEveryCapacity : Obligations.RxPushForEveryCapacity := by
  intro cap r rest
  simpa using runSteps_rxPush_of_empty (s := State.resetFor cap) r rest rfl rfl

end Sys2Proof.Machine

/-! SUPPORT. What one step can do, and what every command leaves of `ACC`, of the parameter registers and of `RX_CAP`. -/

namespace Sys2Proof.Machine

/-- What a step has done when it answers: nothing, the reset event, one command, or the answer to an illegal word. -/
theorem step_next {s t : State} (h : step s = .next t) :
    (s.host = [] ∧ t = s) ∨
    (∃ rest, s.host = .reset :: rest ∧ t = { s with host := rest }.resetBlock) ∨
    (∃ w rest i, s.host = .command w :: rest ∧ decode w = .ok i ∧ exec i { s with host := rest } = .next t) ∨
    (∃ w rest e, s.host = .command w :: rest ∧ decode w = .error e ∧
      t = { s with host := rest }.answer (errorWord .illegalCommand)) := by
  rw [step, runNext] at h
  cases hh : s.host with
  | nil => exact .inl ⟨rfl, by simpa [hh] using h.symm⟩
  | cons e rest =>
    rw [hh] at h
    cases e with
    | reset => exact .inr (.inl ⟨rest, rfl, by injection h with h; exact h.symm⟩)
    | command w =>
      replace h : runCommand w { s with host := rest } = .next t := h
      rw [runCommand] at h
      cases hd : decode w with
      | ok i => exact .inr (.inr (.inl ⟨w, rest, i, rfl, hd, by rwa [hd] at h⟩))
      | error e =>
        rw [hd] at h
        exact .inr (.inr (.inr ⟨w, rest, e, rfl, hd, by injection h with h; exact h.symm⟩))

/-- The state with `ACC` and the parameter registers as a command leaves them (R20, R21). Every arm is written out: with a
default arm, unfolding this definition times out. -/
def writeRegisters (i : Instr) (s : State) : State :=
  match i with
  | .crcInit => s.setAcc 0xFFFF#16
  | .crcUpd b => s.setAcc (crcByte s.acc b)
  | .crcRd => s
  | .parAddr v => s.setPar 0 v
  | .parFunc v => s.setPar 1 v
  | .parStart v => s.setPar 2 v
  | .parCount v => s.setPar 3 v
  | .build => s
  | .attach => s
  | .txLen => s
  | .txRd _ => s
  | .rxClr => s
  | .rxPush _ => s
  | .rxLen => s
  | .verify => s
  | .reset => s.resetBlock

/-- Every command that answers has written `ACC` and the parameter registers as `writeRegisters` says, and leaves `RX_CAP`. -/
theorem exec_registers {i : Instr} {s t : State} (h : exec i s = .next t) :
    t.acc = (writeRegisters i s).acc ∧ t.parAddr = (writeRegisters i s).parAddr ∧
    t.parFunc = (writeRegisters i s).parFunc ∧ t.parStart = (writeRegisters i s).parStart ∧
    t.parCount = (writeRegisters i s).parCount ∧ t.rxCap = s.rxCap := by
  cases i with
  | build =>
    replace h : execBuild s = .next t := h
    rcases execBuild_eq s with ⟨k, -, h'⟩ | ⟨-, h'⟩ <;> (rw [h'] at h; injection h with h; subst h; simp [writeRegisters])
  | attach => rcases execAttach_next h with ⟨-, rfl⟩ | ⟨-, frame, -, rfl⟩ <;> simp [writeRegisters]
  | txRd b => rcases execTxRd_next h with ⟨-, rfl⟩ | ⟨-, v, -, rfl⟩ <;> simp [writeRegisters]
  | rxPush b => rcases execRxPush_next h with ⟨-, rfl⟩ | ⟨-, rfl⟩ <;> simp [writeRegisters]
  | verify =>
    obtain ⟨r, -, rfl⟩ := execVerify_next h
    simp [writeRegisters]
  | crcInit | crcUpd b | crcRd | parAddr v | parFunc v | parStart v | parCount v | txLen | rxClr | rxLen | reset =>
    injection h with h
    subst h
    simp [writeRegisters]

end Sys2Proof.Machine

/-! O10, O51, O52 and O54. The invariants of R26: the reset state meets them, every step from a state that meets them is safe,
and so is every run. -/

namespace Sys2Proof.Machine

/-- `BUILD` with all parameters in range stores the packed request and no other byte (R109). -/
theorem exec_build_valid {s : State} (hwf : s.txBuf.wf) (hvalid : s.checkParams = .valid) :
    exec .build s = .next { s with
      txBuf := Memory.ofBytes 0 (buildRequest s.parAddr s.parFunc s.parStart s.parCount), txLen := 6#4
      responses := s.responses ++ [0x00000000#32] } := by
  rcases execBuild_eq s with ⟨k, hbad, -⟩ | ⟨-, h⟩
  · rw [hbad] at hvalid
    cases hvalid
  · have hbuf := Memory.truncate_writeSeq_zero (buildRequest s.parAddr s.parFunc s.parStart s.parCount) s.txBuf hwf
    rw [exec, h, State.setTxLen, State.setBuf_tx_txBuf, okWord_zero, ← hbuf]
    rfl

/-- `ATTACH` on a six-byte frame appends the frame's CRC, low byte first (R110). -/
theorem exec_attach_frame {s : State} {frame : List Byte} (hlen : s.txLen = 6#4) (hsix : frame.length = 6)
    (hbuf : s.txBuf = Memory.ofBytes 0 frame) :
    exec .attach s = .next { s with
      txBuf := Memory.ofBytes 0 (attachCrc frame), txLen := 8#4, responses := s.responses ++ [0x00000000#32] } := by
  have hread : memReadSeq .tx Config.txCap s 0 Config.frameLen = .ok frame := by
    have hholds : (s.buf .tx).holds 6 := by
      rw [State.buf_tx, hbuf, ← hsix]
      exact Memory.holds_ofBytes frame
    have := memReadSeq_holds (size := Config.txCap) hholds (Nat.le_refl 6) (by decide)
    rwa [State.buf_tx, hbuf, Memory.bytes_ofBytes, List.take_of_length_le (Nat.le_of_eq hsix)] at this
  have hwrite : (s.txBuf.writeSeq 6 (crcBytes frame)).truncate 8 = Memory.ofBytes 0 (attachCrc frame) := by
    rw [hbuf, ← hsix, Memory.writeSeq_ofBytes_length, Memory.truncate_ofBytes, List.take_of_length_le, attachCrc]
    simp [hsix, crcBytes]
  rw [exec, execAttach_accept s hlen hread, State.setTxLen, State.setBuf_tx_txBuf, okWord_zero, ← hwrite]
  rfl

/-- `VERIFY` on a buffer that holds its bytes judges them (R128). -/
theorem exec_verify_holds {s : State} (h : s.RxInv) :
    exec .verify s = .next (s.answer (if verifyBytes s.rxBuf.bytes then okWord 1#16 else okWord 0#16)) := by
  obtain ⟨hholds, hcap⟩ := h
  have hread := memReadSeq_holds (sp := .rx) hholds (Nat.le_refl _) hcap
  rw [State.buf_rx, List.take_of_length_le (Nat.le_of_eq hholds.1)] at hread
  rw [exec, execVerify, hread, withAccess_ok]
  split <;> rfl

/-- `TX.RD` below `TXLEN` on a buffer that holds its bytes answers a byte (R112). -/
theorem exec_txRd_holds {s : State} {b : Byte} (hholds : s.txBuf.holds s.txLen.toNat) (hcap : s.txLen.toNat ≤ Config.txCap)
    (hb : b.toNat < s.txLen.toNat) : ∃ v : Byte, exec (.txRd b) s = .next (s.answer (okWord (zext16 v))) := by
  have hlt : b.toNat < s.txBuf.bytes.length := by rw [hholds.1]; exact hb
  have hread : memRead .tx Config.txCap b.toNat s = .ok s.txBuf.bytes[b.toNat] :=
    memRead_eq_ok.mpr ⟨by omega, by rw [State.buf_tx, hholds.read, List.getElem?_eq_getElem hlt]⟩
  exact ⟨_, by rw [exec, execTxRd, if_neg (by omega), hread, withAccess_ok, respond_eq]⟩

/-- `TXLEN` is within the TX space. -/
theorem State.TxInv.txLen_le {s : State} (h : s.TxInv) : s.txLen.toNat ≤ Config.txCap := by
  obtain ⟨-, h | ⟨h, -⟩ | ⟨h, -⟩⟩ := h <;> rw [h] <;> decide

theorem length_of_isRequest {frame : List Byte} (h : IsRequest frame) : frame.length = 6 := by
  obtain ⟨a, f, s, c, -, rfl⟩ := h
  rfl

@[simp] theorem safeOutcome_next {t : State} : SafeOutcome (.next t) ↔ t.Inv := by simp [SafeOutcome]

/-- The reset state meets the invariants, whatever its capacity (R32, R33). -/
theorem State.inv_resetFor (cap : BitVec 16) : (State.resetFor cap).Inv :=
  ⟨⟨Memory.holds_ofBytes [], .inl rfl⟩, Memory.holds_ofBytes [], Nat.zero_le _⟩

/-- Settles O51: the default capacity is one of all. -/
theorem resetStateMeetsInvariants : Obligations.ResetStateMeetsInvariants :=
  ⟨State.inv_resetFor _, State.inv_resetFor⟩

/-- Settles O10: the two answers are those of `BUILD` at `PAR.COUNT = 0` and of `VERIFY` on no bytes. -/
theorem resetValues : Obligations.ResetValues := by
  refine ⟨State.reset_eq, fun cap => ⟨rfl, fun _ => rfl, fun i => ?_, rfl, rfl, fun _ => rfl, fun _ => rfl, ?_, ?_⟩⟩
  · match i with | 0 | 1 | 2 | 3 => rfl
  · have hcount : exec .build (State.resetFor cap) = raise (.parameterOutOfRange 3) (State.resetFor cap) := rfl
    rw [hcount, raise_eq, errorWord_field3]
    rfl
  · have hempty : verifyBytes (State.resetFor cap).rxBuf.bytes = false := rfl
    rw [exec_verify_holds (State.inv_resetFor cap).2, hempty, if_neg Bool.false_ne_true, okWord_zero]
    rfl

/-- The shared reset leads to a state that meets the invariants, from any state (R170). -/
theorem State.inv_resetBlock (s : State) : s.resetBlock.Inv := by
  rw [State.resetBlock_eq]
  exact State.inv_resetFor s.rxCap

/-- `BUILD` is safe: it reports a bad field, or what it packs is a request. -/
theorem exec_build_safe {s : State} (hs : s.Inv) : SafeOutcome (exec .build s) := by
  have ⟨⟨hholds, _⟩, hrx⟩ := hs
  rcases execBuild_eq s with ⟨k, -, h⟩ | ⟨hvalid, -⟩
  · rw [exec, h, safeOutcome_next]
    exact hs
  · rw [exec_build_valid hholds.wf hvalid, safeOutcome_next]
    refine ⟨⟨Memory.holds_ofBytes _, .inr (.inl ⟨rfl, ?_⟩)⟩, hrx⟩
    exact ⟨_, _, _, _, hvalid, Memory.bytes_ofBytes ..⟩

/-- `ATTACH` is safe: at `TXLEN = 6` the frame is a request, and its CRC follows it. -/
theorem exec_attach_safe {s : State} (hs : s.Inv) : SafeOutcome (exec .attach s) := by
  have ⟨⟨⟨_, hbuf⟩, hframe⟩, hrx⟩ := hs
  by_cases h6 : s.txLen = 6#4
  · have hreq : IsRequest s.txBuf.bytes := by simpa [h6] using hframe
    have hsix := length_of_isRequest hreq
    rw [exec_attach_frame h6 hsix hbuf, safeOutcome_next]
    have hlen : (attachCrc s.txBuf.bytes).length = 8 := by simp [attachCrc, crcBytes, hsix]
    have hholds := Memory.holds_ofBytes (attachCrc s.txBuf.bytes)
    rw [hlen] at hholds
    exact ⟨⟨hholds, .inr (.inr ⟨rfl, _, hreq, Memory.bytes_ofBytes ..⟩)⟩, hrx⟩
  · rw [exec, execAttach_reject s h6, safeOutcome_next]
    exact hs

/-- `TX.RD` is safe: an index below `TXLEN` has its byte. -/
theorem exec_txRd_safe {s : State} (b : Byte) (hs : s.Inv) : SafeOutcome (exec (.txRd b) s) := by
  by_cases hb : b.toNat < s.txLen.toNat
  · obtain ⟨v, hv⟩ := exec_txRd_holds hs.1.1 hs.1.txLen_le hb
    rw [hv, safeOutcome_next]
    exact hs
  · rw [exec, execTxRd, if_pos (by omega), raise_eq, safeOutcome_next]
    exact hs

/-- `RX.PUSH` is safe: it appends while `RXLEN` is below `RX_CAP`. -/
theorem exec_rxPush_safe {s : State} (b : Byte) (hs : s.Inv) : SafeOutcome (exec (.rxPush b) s) := by
  have ⟨htx, ⟨hlen, hbuf⟩, hcap⟩ := hs
  by_cases hfull : s.rxLen = s.rxCap
  · rw [exec_rxPush_full b hfull, safeOutcome_next]
    exact hs
  · have hroom : s.rxLen.toNat < s.rxCap.toNat :=
      Nat.lt_of_le_of_ne hcap fun h => hfull (BitVec.eq_of_toNat_eq h)
    have hnum : (BitVec.ofNat 16 (s.rxLen.toNat + 1)).toNat = s.rxLen.toNat + 1 := by
      have := s.rxCap.isLt
      exact Nat.mod_eq_of_lt (by omega)
    have hholds := Memory.holds_ofBytes (s.rxBuf.bytes ++ [b])
    rw [List.length_append, hlen, List.length_singleton, ← hnum] at hholds
    rw [exec_rxPush_room b hbuf hlen hroom, safeOutcome_next]
    exact ⟨htx, hholds, hnum.trans_le hroom⟩

/-- Every command from a state that meets the invariants answers one that meets them. -/
theorem exec_safe {s : State} (i : Instr) (hs : s.Inv) : SafeOutcome (exec i s) := by
  cases i with
  | build => exact exec_build_safe hs
  | attach => exact exec_attach_safe hs
  | txRd b => exact exec_txRd_safe b hs
  | rxPush b => exact exec_rxPush_safe b hs
  | verify => exact exec_verify_holds hs.2 ▸ safeOutcome_next.mpr hs
  | reset => exact safeOutcome_next.mpr s.inv_resetBlock
  | rxClr =>
    refine safeOutcome_next.mpr ⟨hs.1, ?_⟩
    simp [State.RxInv, Memory.holds, Memory.bytes, Memory.ofBytes]
  | crcInit | crcUpd b | crcRd | parAddr v | parFunc v | parStart v | parCount v | txLen | rxLen =>
    exact safeOutcome_next.mpr hs

/-- Every step from a state that meets the invariants answers one that meets them. -/
theorem step_safe {s : State} (hs : s.Inv) : SafeOutcome (step s) := by
  rw [step, runNext]
  cases s.host with
  | nil => exact safeOutcome_next.mpr hs
  | cons e rest =>
    cases e with
    | reset => exact safeOutcome_next.mpr (State.inv_resetBlock _)
    | command w =>
      show SafeOutcome (runCommand w { s with host := rest })
      rw [runCommand]
      cases decode w with
      | ok i => exact exec_safe i hs
      | error e => exact safeOutcome_next.mpr hs

/-- No step writes `RX_CAP` (R29). -/
theorem step_rxCap {s t : State} (h : step s = .next t) : t.rxCap = s.rxCap := by
  rcases step_next h with ⟨-, rfl⟩ | ⟨rest, -, rfl⟩ | ⟨w, rest, i, -, -, h⟩ | ⟨w, rest, e, -, -, rfl⟩
  · rfl
  · rfl
  · obtain ⟨-, -, -, -, -, hcap⟩ := exec_registers h
    exact hcap
  · rfl

/-- Settles O52: a safe step answers a state that meets the invariants. -/
theorem stepKeepsInvariants : Obligations.StepKeepsInvariants := by
  intro s t hs h
  exact ⟨safeOutcome_next.mp (h ▸ step_safe hs), step_rxCap h⟩

/-- Every run from a state that meets the invariants is safe. -/
theorem runSteps_safe {s : State} (n : Nat) (hs : s.Inv) : SafeOutcome (runSteps n s) := by
  induction n generalizing s with
  | zero => exact safeOutcome_next.mpr hs
  | succ n ih =>
    obtain ⟨t, hstep, ht⟩ := step_safe hs
    rw [runSteps_succ hstep]
    exact ih ht

/-- Settles O54: a run from the reset state starts within the invariants. -/
theorem everyRunFromResetIsSafe : Obligations.EveryRunFromResetIsSafe :=
  fun cap _ n => runSteps_safe n (State.inv_resetFor cap)

end Sys2Proof.Machine

/-! O60. `ACC` over a step. -/

namespace Sys2Proof.Machine

/-- One more byte is one more `crc_byte` (R82). -/
theorem computeCrc_append_singleton (data : List Byte) (b : Byte) :
    computeCrc (data ++ [b]) = crcByte (computeCrc data) b := by
  simp [computeCrc, crcFold_eq_foldl]

/-- What a command leaves in `ACC` is the CRC of the bytes absorbed since the last `CRC.INIT` or reset, the command among them. -/
theorem writeRegisters_acc_eq_computeCrc {i : Instr} {s : State} {w : Command} {data : List Byte} (rest : List HostEvent)
    (hacc : s.acc = computeCrc data) (hd : decode w = .ok i) :
    (writeRegisters i s).acc = computeCrc (bytesSinceInit data (.command w :: rest)) := by
  rw [bytesSinceInit, hd]
  cases i with
  | crcInit | reset => rfl
  | crcUpd b => rw [computeCrc_append_singleton, ← hacc]; rfl
  | crcRd | parAddr v | parFunc v | parStart v | parCount v | build | attach | txLen | txRd b | rxClr | rxPush b | rxLen
  | verify => exact hacc

/-- Settles O60, by what a step can do. -/
theorem accumulatorIsCrcOfBytesSinceInit : Obligations.AccumulatorIsCrcOfBytesSinceInit := by
  intro s t data hacc h
  rcases step_next h with ⟨hh, rfl⟩ | ⟨rest, hh, rfl⟩ | ⟨w, rest, i, hh, hd, h⟩ | ⟨w, rest, e, hh, hd, rfl⟩ <;> rw [hh]
  · exact hacc
  · rfl
  · obtain ⟨hwritten, -⟩ := exec_registers h
    rw [hwritten]
    exact writeRegisters_acc_eq_computeCrc rest hacc hd
  · rw [bytesSinceInit, hd]
    exact hacc

end Sys2Proof.Machine

/-! SUPPORT, O47, O48 and O50. What a command does not read: an update of the state that touches none of the parts a command
works on may be made before the command or after it. The three statements are this one fact about three updates. -/

namespace Sys2Proof.Machine

/-- An update that touches no buffer, no length and no `RX_CAP`, and may be made before or after a response. -/
structure OffBuffers (f : State → State) : Prop where
  buf : ∀ s sp, (f s).buf sp = s.buf sp
  txLen : ∀ s, (f s).txLen = s.txLen
  rxLen : ∀ s, (f s).rxLen = s.rxLen
  rxCap : ∀ s, (f s).rxCap = s.rxCap
  setBuf : ∀ s sp m, (f s).setBuf sp m = f (s.setBuf sp m)
  setTxLen : ∀ s n, (f s).setTxLen n = f (s.setTxLen n)
  setRxLen : ∀ s n, (f s).setRxLen n = f (s.setRxLen n)
  answer : ∀ s r, (f s).answer r = f (s.answer r)

/-- An update that does not touch `ACC`. -/
structure OffAcc (f : State → State) : Prop where
  acc : ∀ s, (f s).acc = s.acc
  setAcc : ∀ s v, (f s).setAcc v = f (s.setAcc v)

/-- An update that touches no parameter register. -/
structure OffPar (f : State → State) : Prop where
  par : ∀ s i, (f s).par i = s.par i
  setPar : ∀ s i v, (f s).setPar i v = f (s.setPar i v)

/-- The commands that work on `ACC`. -/
def usesAcc (i : Instr) : Prop := (∃ b, i = .crcUpd b) ∨ i ∈ [Instr.crcInit, .crcRd, .reset]

/-- The commands that work on the parameter registers. -/
def usesPar (i : Instr) : Prop :=
  i ∈ [Instr.build, .reset] ∨ ∃ v, i ∈ [Instr.parAddr v, .parFunc v, .parStart v, .parCount v]

/-- An update made to the state a step answers. -/
def mapNext (f : State → State) : Result → Result
  | .next s => .next (f s)
  | .fault r => .fault r
  | .refused r => .refused r

theorem mapNext_withAccess {α : Type} (f : State → State) (r : Except Fault α) (k : α → Result) :
    mapNext f (withAccess r k) = withAccess r (fun a => mapNext f (k a)) := by
  cases r <;> rfl

theorem withAccess_map {α β : Type} (g : α → β) (r : Except Fault α) (k : β → Result) :
    withAccess (r.map g) k = withAccess r (fun a => k (g a)) := by
  cases r <;> rfl

/-- Reads depend on the buffer of their space only. -/
theorem memRead_congr {sp : Space} {s s' : State} (size i : Nat) (h : s.buf sp = s'.buf sp) :
    memRead sp size i s = memRead sp size i s' := by
  rw [memRead, memRead, h]

theorem memReadSeq_congr {sp : Space} {s s' : State} (size i n : Nat) (h : s.buf sp = s'.buf sp) :
    memReadSeq sp size s i n = memReadSeq sp size s' i n := by
  induction n generalizing i with
  | zero => rfl
  | succ n ih => rw [memReadSeq, memReadSeq, memRead_congr size i h, ih]

namespace OffBuffers

variable {f : State → State} (hf : OffBuffers f)
include hf

theorem respond_comm (v : Half) (s : State) : respond v (f s) = mapNext f (respond v s) :=
  congrArg _ (hf.answer s _)

theorem raise_comm (e : Error) (s : State) : raise e (f s) = mapNext f (raise e s) :=
  congrArg _ (hf.answer s _)

theorem memWrite_comm (sp : Space) (size i : Nat) (v : Byte) (s : State) :
    memWrite sp size i v (f s) = (memWrite sp size i v s).map f := by
  rw [memWrite, memWrite, hf.buf, hf.setBuf]
  split <;> rfl

theorem memWriteSeq_comm (sp : Space) (size i : Nat) (bs : List Byte) (s : State) :
    memWriteSeq sp size i bs (f s) = (memWriteSeq sp size i bs s).map f := by
  induction bs generalizing i s with
  | nil => rfl
  | cons b bs ih =>
    rw [memWriteSeq, memWriteSeq, hf.memWrite_comm]
    cases memWrite sp size i b s with
    | error e => rfl
    | ok s' => exact ih (i + 1) s'

theorem execBuild_comm (hp : OffPar f) (s : State) : execBuild (f s) = mapNext f (execBuild s) := by
  have hAddr : (f s).parAddr = s.parAddr := hp.par s 0
  have hFunc : (f s).parFunc = s.parFunc := hp.par s 1
  have hStart : (f s).parStart = s.parStart := hp.par s 2
  have hCount : (f s).parCount = s.parCount := hp.par s 3
  have hcheck : (f s).checkParams = s.checkParams := by
    rw [State.checkParams, State.checkParams, hAddr, hFunc, hStart, hCount]
  rw [execBuild, execBuild, hcheck, hAddr, hFunc, hStart, hCount]
  cases s.checkParams with
  | outOfRange k => exact hf.raise_comm _ s
  | valid => simp only [hf.memWriteSeq_comm, withAccess_map, mapNext_withAccess, hf.setTxLen, hf.respond_comm]

theorem execAttach_comm (s : State) : execAttach (f s) = mapNext f (execAttach s) := by
  rw [execAttach, execAttach, hf.txLen, memReadSeq_congr _ _ _ (hf.buf s .tx)]
  split
  · simp only [hf.memWriteSeq_comm, withAccess_map, mapNext_withAccess, hf.setTxLen, hf.respond_comm]
  · exact hf.raise_comm _ s

theorem execTxRd_comm (b : Byte) (s : State) : execTxRd b (f s) = mapNext f (execTxRd b s) := by
  rw [execTxRd, execTxRd, hf.txLen, memRead_congr _ _ (hf.buf s .tx)]
  split
  · exact hf.raise_comm _ s
  · simp only [mapNext_withAccess, hf.respond_comm]

theorem execRxPush_comm (b : Byte) (s : State) : execRxPush b (f s) = mapNext f (execRxPush b s) := by
  rw [execRxPush, execRxPush, hf.rxLen, hf.rxCap, hf.memWrite_comm]
  split
  · exact hf.raise_comm _ s
  · simp only [withAccess_map, mapNext_withAccess, hf.rxLen, hf.setRxLen, hf.respond_comm]

theorem execVerify_comm (s : State) : execVerify (f s) = mapNext f (execVerify s) := by
  rw [execVerify, execVerify, hf.rxLen, hf.rxCap, memReadSeq_congr _ _ _ (hf.buf s .rx), mapNext_withAccess]
  congr 1
  funext r
  split <;> exact hf.respond_comm _ s

/-- A command and an update off the parts the command works on may change places. -/
theorem exec_comm {i : Instr} (ha : usesAcc i → OffAcc f) (hp : usesPar i → OffPar f) (s : State) :
    exec i (f s) = mapNext f (exec i s) := by
  cases i with
  | crcInit | crcUpd b | crcRd =>
    replace ha := ha (by simp [usesAcc])
    simp only [exec, execCrcInit, execCrcUpd, execCrcRd, ha.acc, ha.setAcc, hf.respond_comm]
  | parAddr v | parFunc v | parStart v | parCount v =>
    replace hp := hp (by simp [usesPar])
    simp only [exec, execParAddr, execParFunc, execParStart, execParCount, hp.setPar, hf.respond_comm]
  | reset =>
    replace ha := ha (by simp [usesAcc])
    replace hp := hp (by simp [usesPar])
    simp only [exec, execReset, State.resetBlock, ha.setAcc, hp.setPar, hf.setTxLen, hf.setRxLen, hf.respond_comm]
  | build => exact hf.execBuild_comm (hp (by simp [usesPar])) s
  | attach => exact hf.execAttach_comm s
  | txRd b => exact hf.execTxRd_comm b s
  | rxPush b => exact hf.execRxPush_comm b s
  | verify => exact hf.execVerify_comm s
  | txLen | rxClr | rxLen =>
    simp only [exec, execTxLen, execRxClr, execRxLen, hf.txLen, hf.rxLen, hf.setRxLen, hf.respond_comm]

/-- The same for a command known to answer. -/
theorem exec_eq_next {i : Instr} {s t : State} (ha : usesAcc i → OffAcc f) (hp : usesPar i → OffPar f)
    (h : exec i s = .next t) : exec i (f s) = .next (f t) := by
  rw [hf.exec_comm ha hp, h, mapNext]

end OffBuffers

/-- A write of `ACC` is off everything else. -/
theorem offBuffers_setAcc (x : Half) : OffBuffers (fun s => { s with acc := x }) where
  buf _ sp := by cases sp <;> rfl
  setBuf _ sp _ := by cases sp <;> rfl
  txLen _ := rfl
  rxLen _ := rfl
  rxCap _ := rfl
  setTxLen _ _ := rfl
  setRxLen _ _ := rfl
  answer _ _ := rfl

theorem offPar_setAcc (x : Half) : OffPar (fun s => { s with acc := x }) where
  par _ i := by match i with | 0 | 1 | 2 | 3 => rfl
  setPar _ i _ := by match i with | 0 | 1 | 2 | 3 => rfl

/-- A command that does not work on `ACC` leaves it. -/
theorem writeRegisters_acc_of_not_usesAcc {i : Instr} (s : State) (h : ¬ usesAcc i) : (writeRegisters i s).acc = s.acc := by
  cases i with
  | crcInit | crcUpd b | crcRd | reset => exact absurd (by simp [usesAcc]) h
  | parAddr v | parFunc v | parStart v | parCount v | build | attach | txLen | txRd b | rxClr | rxPush b | rxLen | verify =>
    rfl

/-- Settles O47: a write of `ACC` changes places with every command that does not work on it. -/
theorem accumulatorIsPrivateToCrcCommands : Obligations.AccumulatorIsPrivateToCrcCommands := by
  intro i s t x hupd hother h
  have hi : ¬ usesAcc i := not_or.mpr ⟨not_exists.mpr hupd, hother⟩
  obtain ⟨hacc, -⟩ := exec_registers h
  exact ⟨hacc.trans (writeRegisters_acc_of_not_usesAcc s hi),
    (offBuffers_setAcc x).exec_eq_next (fun hu => absurd hu hi) (fun _ => offPar_setAcc x) h⟩

/-- A write of the four parameter registers is off everything else. -/
theorem offBuffers_setPars (a f st c : Word) :
    OffBuffers (fun s => { s with parAddr := a, parFunc := f, parStart := st, parCount := c }) where
  buf _ sp := by cases sp <;> rfl
  setBuf _ sp _ := by cases sp <;> rfl
  txLen _ := rfl
  rxLen _ := rfl
  rxCap _ := rfl
  setTxLen _ _ := rfl
  setRxLen _ _ := rfl
  answer _ _ := rfl

theorem offAcc_setPars (a f st c : Word) :
    OffAcc (fun s => { s with parAddr := a, parFunc := f, parStart := st, parCount := c }) where
  acc _ := rfl
  setAcc _ _ := rfl

/-- Every command but `RESET` leaves the parameter registers that are not its own. -/
theorem exec_par_frame {i : Instr} {s t : State} (hreset : i ≠ .reset) (h : exec i s = .next t) :
    ((∀ v, i ≠ .parAddr v) → t.par 0 = s.par 0) ∧ ((∀ v, i ≠ .parFunc v) → t.par 1 = s.par 1) ∧
    ((∀ v, i ≠ .parStart v) → t.par 2 = s.par 2) ∧ ((∀ v, i ≠ .parCount v) → t.par 3 = s.par 3) := by
  obtain ⟨-, hAddr, hFunc, hStart, hCount, -⟩ := exec_registers h
  simp only [State.par_zero, State.par_one, State.par_two, State.par_three, hAddr, hFunc, hStart, hCount]
  cases i with
  | reset => exact absurd rfl hreset
  | parAddr v => exact ⟨fun hi => absurd rfl (hi v), fun _ => rfl, fun _ => rfl, fun _ => rfl⟩
  | parFunc v => exact ⟨fun _ => rfl, fun hi => absurd rfl (hi v), fun _ => rfl, fun _ => rfl⟩
  | parStart v => exact ⟨fun _ => rfl, fun _ => rfl, fun hi => absurd rfl (hi v), fun _ => rfl⟩
  | parCount v => exact ⟨fun _ => rfl, fun _ => rfl, fun _ => rfl, fun hi => absurd rfl (hi v)⟩
  | crcInit | crcUpd b | crcRd | build | attach | txLen | txRd b | rxClr | rxPush b | rxLen | verify =>
    exact ⟨fun _ => rfl, fun _ => rfl, fun _ => rfl, fun _ => rfl⟩

/-- Settles O48: a write of the parameter registers changes places with every command that does not work on them. -/
theorem parametersAreReadByBuildOnly : Obligations.ParametersAreReadByBuildOnly := by
  refine ⟨fun i s t => exec_par_frame, fun i s t a f st c hbuild hpar h => ?_⟩
  have hi : ¬ usesPar i := not_or.mpr ⟨hbuild, not_exists.mpr hpar⟩
  exact (offBuffers_setPars a f st c).exec_eq_next (fun _ => offAcc_setPars a f st c) (fun hu => absurd hu hi) h

/-- The host's side with other events to send, and other response words before those delivered. -/
def State.replacePorts (h : List HostEvent) (past : List Word) (s : State) : State :=
  { s with host := h, responses := past ++ s.responses }

theorem offBuffers_replacePorts (h : List HostEvent) (past : List Word) : OffBuffers (State.replacePorts h past) where
  buf _ sp := by cases sp <;> rfl
  setBuf _ sp _ := by cases sp <;> rfl
  txLen _ := rfl
  rxLen _ := rfl
  rxCap _ := rfl
  setTxLen _ _ := rfl
  setRxLen _ _ := rfl
  answer _ _ := by simp [State.replacePorts, State.answer]

theorem offAcc_replacePorts (h : List HostEvent) (past : List Word) : OffAcc (State.replacePorts h past) where
  acc _ := rfl
  setAcc _ _ := rfl

theorem offPar_replacePorts (h : List HostEvent) (past : List Word) : OffPar (State.replacePorts h past) where
  par _ i := by match i with | 0 | 1 | 2 | 3 => rfl
  setPar _ i _ := by match i with | 0 | 1 | 2 | 3 => rfl

/-- Every command does the same whatever the host's side holds. -/
theorem exec_replacePorts (i : Instr) (h : List HostEvent) (past : List Word) (s : State) :
    exec i (s.replacePorts h past) = mapNext (State.replacePorts h past) (exec i s) :=
  (offBuffers_replacePorts h past).exec_comm (fun _ => offAcc_replacePorts h past) (fun _ => offPar_replacePorts h past) s

/-- Settles O50: both runs of the command are its run with nothing in the two fields, with the fields put back. -/
theorem commandsDoNotReadThePorts : Obligations.CommandsDoNotReadThePorts := by
  intro i s t h
  have hbare (h' : List HostEvent) (past : List Word) :
      { s with host := h', responses := past } = { s with host := [], responses := [] }.replacePorts h' past := by
    simp [State.replacePorts]
  have hs := exec_replacePorts i s.host s.responses { s with host := [], responses := [] }
  rw [← hbare, h] at hs
  cases hrun : exec i { s with host := [], responses := [] } with
  | fault f => simp [hrun, mapNext] at hs
  | refused f => simp [hrun, mapNext] at hs
  | next u =>
    rw [hrun, mapNext, Host.Outcome.next.injEq] at hs
    obtain ⟨-, r, hr⟩ := exec_host hrun
    refine ⟨r, hs ▸ rfl, by simp [hs, State.replacePorts, hr], fun h' past => ?_⟩
    rw [hbare, exec_replacePorts, hrun, mapNext, hs]
    simp [State.replacePorts, hr]

end Sys2Proof.Machine

/-! O8 and O55. A step on a word that decodes, and the canonical form of both buffers over a step: every operation on the
buffers keeps it, so every command does, and so does every step. -/

namespace Sys2Proof.Machine

/-- Settles O8: decoding comes first, then the command, with nothing between (R69). -/
theorem stepRunsDecodedInstruction : Obligations.StepRunsDecodedInstruction := by
  intro s w rest i hd _
  rw [step_cons, runEvent, runCommand, hd]

/-- Both buffers are in canonical form (log 4). -/
def State.Canonical (s : State) : Prop := s.txBuf.wf ∧ s.rxBuf.wf

theorem State.Canonical.setBuf {s : State} (hs : s.Canonical) (sp : Space) {m : Memory} (hm : m.wf) :
    (s.setBuf sp m).Canonical := by
  cases sp with
  | tx => exact ⟨hm, hs.2⟩
  | rx => exact ⟨hs.1, hm⟩

theorem State.Canonical.setTxLen {s : State} (hs : s.Canonical) (n : BitVec 4) : (s.setTxLen n).Canonical :=
  ⟨Memory.wf_truncate _ _ hs.1, hs.2⟩

theorem State.Canonical.setRxLen {s : State} (hs : s.Canonical) (n : BitVec 16) : (s.setRxLen n).Canonical :=
  ⟨hs.1, Memory.wf_truncate _ _ hs.2⟩

theorem State.Canonical.answer {s : State} (hs : s.Canonical) (r : Word) : (s.answer r).Canonical := hs

/-- The shared reset empties both buffers, whatever they held (R34, R170). -/
theorem State.canonical_resetBlock (s : State) : s.resetBlock.Canonical := by
  rw [State.resetBlock_eq]
  exact ⟨Memory.wf_nil, Memory.wf_nil⟩

/-- Every command that answers keeps both buffers in canonical form: a store writes bytes and then sets a length, any other
command leaves the buffers or drops bytes. -/
theorem exec_canonical {i : Instr} {s t : State} (hs : s.Canonical) (h : exec i s = .next t) : t.Canonical := by
  cases i with
  | build =>
    replace h : execBuild s = .next t := h
    rcases execBuild_eq s with ⟨k, -, h'⟩ | ⟨-, h'⟩ <;> (rw [h'] at h; injection h with h; subst h)
    · exact hs.answer _
    · exact ((hs.setBuf .tx (Memory.wf_writeSeq _ _ _ hs.1)).setTxLen _).answer _
  | attach =>
    rcases execAttach_next h with ⟨-, rfl⟩ | ⟨-, frame, -, rfl⟩
    · exact hs.answer _
    · exact ((hs.setBuf .tx (Memory.wf_writeSeq _ _ _ hs.1)).setTxLen _).answer _
  | rxPush b =>
    rcases execRxPush_next h with ⟨-, rfl⟩ | ⟨-, rfl⟩
    · exact hs.answer _
    · exact ((hs.setBuf .rx (Memory.wf_write _ _ _ hs.2)).setRxLen _).answer _
  | txRd b => rcases execTxRd_next h with ⟨-, rfl⟩ | ⟨-, v, -, rfl⟩ <;> exact hs.answer _
  | verify =>
    obtain ⟨r, -, rfl⟩ := execVerify_next h
    exact hs.answer _
  | rxClr =>
    injection h with h
    exact h ▸ (hs.setRxLen _).answer _
  | reset =>
    injection h with h
    exact h ▸ s.canonical_resetBlock.answer _
  | crcInit | crcUpd b | crcRd | parAddr v | parFunc v | parStart v | parCount v | txLen | rxLen =>
    injection h with h
    exact h ▸ hs

/-- Settles O55, by what a step can do. -/
theorem stepKeepsCanonicalMemory : Obligations.StepKeepsCanonicalMemory := by
  intro s t htx hrx h
  have hs : s.Canonical := ⟨htx, hrx⟩
  rcases step_next h with ⟨-, rfl⟩ | ⟨rest, -, rfl⟩ | ⟨w, rest, i, -, -, h⟩ | ⟨w, rest, e, -, -, rfl⟩
  · exact hs
  · exact State.canonical_resetBlock _
  · exact exec_canonical (s := { s with host := rest }) hs h
  · exact hs

end Sys2Proof.Machine

/-! O2 and O3. Each instruction has one word and each word that decodes is its instruction's. -/

namespace Sys2Proof

/-- The operands of `Instr` are typed, so each fits its format (R61 to R63). -/
theorem Instr.wellFormed_eq_true (i : Instr) : i.wellFormed = true := by
  cases i with
  | crcInit | crcRd | build | attach | txLen | rxClr | rxLen | verify | reset => rfl
  | crcUpd b | txRd b | rxPush b => exact decide_eq_true b.isLt
  | parAddr v | parFunc v | parStart v | parCount v => exact decide_eq_true v.isLt

/-- Settles O2, by the two fields of an encoded word. -/
theorem decodeOfEncode : Obligations.DecodeOfEncode :=
  fun i => ⟨i.wellFormed_eq_true, decode_encode i⟩

/-- What a format asks of `IMM`: its reserved bits are zero (R61 to R63). -/
def Format.ReservedZero : Format → Word → Prop
  | .n, imm => imm = 0#32
  | .b, imm => imm.extractLsb' 8 24 = 0#24
  | .w, _ => True

/-- The decoder on the two fields of a word that decodes, with `OP` known. -/
theorem decodeFields_of_decode {w : Command} {i : Instr} (h : decode w = .ok i) :
    decodeFields i.opcode (immField w) = .ok i := by
  rwa [decode, opcode_of_decode h] at h

/-- The `IMM` of a word that decodes has its reserved bits zero and is its instruction's immediate. -/
theorem imm_of_decode {w : Command} {i : Instr} (h : decode w = .ok i) :
    i.format.ReservedZero (immField w) ∧ immField w = i.imm := by
  replace h := decodeFields_of_decode h
  cases i with
  | crcInit | crcRd | build | attach | txLen | rxClr | rxLen | verify | reset =>
    obtain ⟨hzero, -⟩ := decodeN_eq_ok.mp h
    exact ⟨hzero, hzero⟩
  | crcUpd b | txRd b | rxPush b =>
    obtain ⟨hzero, hb⟩ := decodeB_eq_ok.mp h
    injection hb with hb
    exact ⟨hzero, (hb ▸ ofNat_low_byte hzero).symm⟩
  | parAddr v | parFunc v | parStart v | parCount v =>
    have hv := decodeW_eq_ok.mp h
    injection hv with hv
    exact ⟨trivial, hv.trans ((BitVec.ofNat_toNat 32 v).trans (BitVec.setWidth_eq v)).symm⟩

/-- Settles O3: a word is its two fields, and both are the instruction's. -/
theorem encodeOfDecode : Obligations.EncodeOfDecode := by
  intro w i h
  obtain ⟨-, himm⟩ := imm_of_decode h
  rw [encode, ← opcode_of_decode h, ← himm, opField_append_immField]

end Sys2Proof

/-! O5. The operand of a decoded word. -/

namespace Sys2Proof

/-- The operand each format reads from `IMM` (R61 to R64). -/
def Format.operand : Format → Word → Option Nat
  | .n, _ => none
  | .b, imm => some (imm.extractLsb' 0 8).toNat
  | .w, imm => some imm.toNat

/-- The operand of an instruction is the one its format reads from its immediate. -/
theorem Instr.operand_eq (i : Instr) : i.operand = i.format.operand i.imm := by
  cases i with
  | crcInit | crcRd | build | attach | txLen | rxClr | rxLen | verify | reset => rfl
  | crcUpd b | txRd b | rxPush b =>
    obtain ⟨-, hb⟩ := low_byte_of_ofNat b
    exact congrArg (fun x : Byte => some x.toNat) hb.symm
  | parAddr v | parFunc v | parStart v | parCount v =>
    exact congrArg some (Nat.mod_eq_of_lt v.isLt).symm

/-- Bits of `IMM` are bits of the word at the same place (R60). -/
theorem extractLsb'_immField (w : Command) {start len : Nat} (h : start + len ≤ 32) :
    (immField w).extractLsb' start len = w.extractLsb' start len :=
  BitVec.extractLsb'_extractLsb'_of_le h

/-- Settles O5: the reserved bits and the operand are those of the format. -/
theorem decodeOperands : Obligations.DecodeOperands := by
  intro w i h
  obtain ⟨hzero, himm⟩ := imm_of_decode h
  have hoperand : i.operand = i.format.operand (immField w) := himm ▸ i.operand_eq
  refine ⟨opcode_of_decode h, fun hf => ?_, fun hf => ?_, fun hf => ?_⟩ <;> rw [hf] at hzero hoperand
  · exact ⟨hoperand, hzero⟩
  · rw [← extractLsb'_immField w (by decide), ← extractLsb'_immField w (by decide)]
    exact ⟨hoperand, hzero⟩
  · exact hoperand

end Sys2Proof

/-! SUPPORT. The rows of the opcode map as instructions: one of each command, and what a word needs to be a row's command. -/

namespace Sys2Proof

/-- One instruction of each command, in the order of the opcode map (R68). -/
def Instr.representatives : List Instr :=
  [.crcInit, .crcUpd 0#8, .crcRd, .parAddr 0#32, .parFunc 0#32, .parStart 0#32, .parCount 0#32, .build, .attach, .txLen,
    .txRd 0#8, .rxClr, .rxPush 0#8, .rxLen, .verify, .reset]

/-- Every instruction is of the same command as one of these. -/
theorem Instr.exists_representative (i : Instr) :
    ∃ j ∈ Instr.representatives, i.mnemonic = j.mnemonic ∧ i.opcode = j.opcode ∧ i.format = j.format := by
  cases i with
  | crcInit | crcRd | build | attach | txLen | rxClr | rxLen | verify | reset =>
    exact ⟨_, by decide, rfl, rfl, rfl⟩
  | crcUpd b => exact ⟨.crcUpd 0#8, by decide, rfl, rfl, rfl⟩
  | txRd b => exact ⟨.txRd 0#8, by decide, rfl, rfl, rfl⟩
  | rxPush b => exact ⟨.rxPush 0#8, by decide, rfl, rfl, rfl⟩
  | parAddr v => exact ⟨.parAddr 0#32, by decide, rfl, rfl, rfl⟩
  | parFunc v => exact ⟨.parFunc 0#32, by decide, rfl, rfl, rfl⟩
  | parStart v => exact ⟨.parStart 0#32, by decide, rfl, rfl, rfl⟩
  | parCount v => exact ⟨.parCount 0#32, by decide, rfl, rfl, rfl⟩

/-- No two commands share an opcode (R68). -/
theorem Instr.eq_of_opcode_eq : ∀ i ∈ Instr.representatives, ∀ j ∈ Instr.representatives, i.opcode = j.opcode → i = j :=
  List.inj_on_of_nodup_map (by decide)

/-- No two commands share a mnemonic (R68). -/
theorem Instr.eq_of_mnemonic_eq :
    ∀ i ∈ Instr.representatives, ∀ j ∈ Instr.representatives, i.mnemonic = j.mnemonic → i = j :=
  List.inj_on_of_nodup_map (by decide)

/-- The mnemonic fixes the opcode and the format. -/
theorem Instr.opcode_format_of_mnemonic_eq {i j : Instr} (h : i.mnemonic = j.mnemonic) :
    i.opcode = j.opcode ∧ i.format = j.format := by
  obtain ⟨a, ha, hia, hopa, hfa⟩ := i.exists_representative
  obtain ⟨b, hb, hjb, hopb, hfb⟩ := j.exists_representative
  have hab : a = b := Instr.eq_of_mnemonic_eq a ha b hb (by rw [← hia, ← hjb, h])
  rw [hopa, hfa, hopb, hfb, hab]
  exact ⟨rfl, rfl⟩

/-- A word decodes to a command exactly when its `OP` is the command's and the reserved bits of the format are zero
(R61 to R63, R68, R69). -/
theorem decodes_to_command_iff (w : Command) (j : Instr) :
    (∃ i, decode w = .ok i ∧ i.mnemonic = j.mnemonic) ↔ opField w = j.opcode ∧ j.format.ReservedZero (immField w) := by
  constructor
  · rintro ⟨i, hd, hm⟩
    obtain ⟨hop, hf⟩ := Instr.opcode_format_of_mnemonic_eq hm
    obtain ⟨hzero, -⟩ := imm_of_decode hd
    exact ⟨hop ▸ opcode_of_decode hd, hf ▸ hzero⟩
  · rintro ⟨hop, hzero⟩
    rw [decode, hop]
    cases j with
    | crcInit | crcRd | build | attach | txLen | rxClr | rxLen | verify | reset =>
      exact ⟨_, decodeN_eq_ok.mpr ⟨hzero, rfl⟩, rfl⟩
    | crcUpd b | txRd b | rxPush b => exact ⟨_, decodeB_eq_ok.mpr ⟨hzero, rfl⟩, rfl⟩
    | parAddr v | parFunc v | parStart v | parCount v => exact ⟨_, decodeW_eq_ok.mpr rfl, rfl⟩

end Sys2Proof

/-! O4. The opcode map: what match and mask of a row say about the two fields of a word. -/

namespace Sys2Proof

/-- The reserved bits of `IMM` in a format (R61 to R63). -/
def Format.immMask : Format → Word
  | .n => 0xFFFFFFFF#32
  | .b => 0xFFFFFF00#32
  | .w => 0x00000000#32

/-- The row of a command: its match has the opcode above zeros, its mask covers `OP` and the reserved bits (R68). -/
def Instr.row (i : Instr) : OpcodeRow := ⟨i.mnemonic, i.opcode ++ 0#32, 0xFF#8 ++ i.format.immMask⟩

theorem opcodeTable_eq : opcodeTable = Instr.representatives.map Instr.row := by decide

/-- Masking a word that is two fields masks the fields. -/
theorem append_and_append_eq_iff {m n : Nat} (a c p : BitVec m) (b d q : BitVec n) :
    (a ++ b) &&& (c ++ d) = p ++ q ↔ a &&& c = p ∧ b &&& d = q := by
  rw [BitVec.and_append]
  refine ⟨fun h => ⟨?_, ?_⟩, fun ⟨hhi, hlo⟩ => hhi ▸ hlo ▸ rfl⟩
  · simpa [BitVec.extractLsb'_append_eq_left] using congrArg (BitVec.extractLsb' n m) h
  · simpa [BitVec.extractLsb'_append_eq_right] using congrArg (BitVec.extractLsb' 0 n) h

/-- The reserved bits of a format are zero when masking them leaves nothing. -/
theorem Format.and_immMask_eq_zero_iff (f : Format) (imm : Word) : imm &&& f.immMask = 0#32 ↔ f.ReservedZero imm := by
  cases f with
  | n => exact (BitVec.and_allOnes (x := imm)).congr_left
  | b =>
    have hsplit : imm.extractLsb' 8 24 ++ imm.extractLsb' 0 8 = imm := BitVec.extractLsb'_append_extractLsb'
    have hmask := append_and_append_eq_iff (imm.extractLsb' 8 24) (BitVec.allOnes 24) 0#24 (imm.extractLsb' 0 8) 0#8 0#8
    rw [hsplit, BitVec.and_allOnes, BitVec.and_zero] at hmask
    exact hmask.trans (and_iff_left rfl)
  | w => exact iff_of_true BitVec.and_zero trivial

/-- A word matches a row exactly when its `OP` is the command's and the reserved bits of the format are zero. -/
theorem matches_row_iff (w : Command) (i : Instr) :
    w &&& i.row.mask = i.row.pattern ↔ opField w = i.opcode ∧ i.format.ReservedZero (immField w) := by
  have hmask := append_and_append_eq_iff (opField w) (BitVec.allOnes 8) i.opcode (immField w) i.format.immMask 0#32
  rwa [opField_append_immField, BitVec.and_allOnes, Format.and_immMask_eq_zero_iff] at hmask

/-- Settles O4: matching a row and decoding to its command say the same about the two fields, and `OP` fixes the row. -/
theorem decodeFollowsOpcodeTable : Obligations.DecodeFollowsOpcodeTable := by
  refine ⟨rfl, fun w r hr => ?_, fun w r hr r' hr' hw hw' => ?_⟩
  · rw [opcodeTable_eq] at hr
    obtain ⟨j, -, rfl⟩ := List.mem_map.mp hr
    exact (matches_row_iff w j).trans (decodes_to_command_iff w j).symm
  · rw [opcodeTable_eq] at hr hr'
    obtain ⟨j, hj, rfl⟩ := List.mem_map.mp hr
    obtain ⟨k, hk, rfl⟩ := List.mem_map.mp hr'
    obtain ⟨hop, -⟩ := (matches_row_iff w j).mp hw
    obtain ⟨hop', -⟩ := (matches_row_iff w k).mp hw'
    rw [Instr.eq_of_opcode_eq j hj k hk (hop.symm.trans hop')]

end Sys2Proof

/-! O6. Illegal words. -/

namespace Sys2Proof.Machine

/-- A word whose `OP` is a command's decodes exactly when the reserved bits of the command's format are zero. -/
theorem decodes_iff_reservedZero {w : Command} {j : Instr} (hj : j ∈ Instr.representatives) (hop : opField w = j.opcode) :
    (∃ i, decode w = .ok i) ↔ j.format.ReservedZero (immField w) := by
  constructor
  · rintro ⟨i, hd⟩
    obtain ⟨k, hk, -, hopk, hfk⟩ := i.exists_representative
    have hjk : j = k := Instr.eq_of_opcode_eq j hj k hk (by rw [← hop, opcode_of_decode hd, hopk])
    obtain ⟨hzero, -⟩ := imm_of_decode hd
    rwa [hjk, ← hfk]
  · intro hzero
    obtain ⟨i, hd, -⟩ := (decodes_to_command_iff w j).mpr ⟨hop, hzero⟩
    exact ⟨i, hd⟩

/-- The opcodes of a format's commands are those of the representatives of that format. -/
theorem mem_opcodes_of_format_iff {j : Instr} (hj : j ∈ Instr.representatives) (f : Format) :
    j.opcode ∈ (Instr.representatives.filter (·.format = f)).map Instr.opcode ↔ j.format = f := by
  simp only [List.mem_map, List.mem_filter, decide_eq_true_eq]
  constructor
  · rintro ⟨k, ⟨hk, hf⟩, hop⟩
    rwa [← Instr.eq_of_opcode_eq k hk j hj hop]
  · exact fun hf => ⟨j, ⟨hj, hf⟩, rfl⟩

/-- A word is no command exactly when its `OP` is no command's or a reserved bit of its format is set (R70). -/
theorem illegal_iff (w : Command) :
    (opField w ∉ Instr.representatives.map Instr.opcode ∨
      (opField w ∈ (Instr.representatives.filter (·.format = .n)).map Instr.opcode ∧ immField w ≠ 0#32) ∨
      (opField w ∈ (Instr.representatives.filter (·.format = .b)).map Instr.opcode ∧
        (immField w).extractLsb' 8 24 ≠ 0#24)) ↔ ∀ i, decode w ≠ .ok i := by
  rw [← not_exists]
  by_cases hmem : opField w ∈ Instr.representatives.map Instr.opcode
  · obtain ⟨j, hj, hop⟩ := List.mem_map.mp hmem
    rw [decodes_iff_reservedZero hj hop.symm, ← hop, mem_opcodes_of_format_iff hj, mem_opcodes_of_format_iff hj]
    have hknown : j.opcode ∈ Instr.representatives.map Instr.opcode := List.mem_map_of_mem hj
    cases hf : j.format <;> simp [hknown, Format.ReservedZero]
  · refine iff_of_true (.inl hmem) fun ⟨i, hd⟩ => hmem ?_
    obtain ⟨j, hj, -, hop, -⟩ := i.exists_representative
    rw [opcode_of_decode hd, hop]
    exact List.mem_map_of_mem hj

/-- A step on a word that is no command answers `IllegalCommand` and changes nothing else (R70, R152). -/
theorem step_of_illegal (s : State) {w : Command} (rest : List HostEvent) (h : ∀ i, decode w ≠ .ok i) :
    step { s with host := .command w :: rest } =
      .next { s with host := rest, responses := s.responses ++ [0x20000000#32] } := by
  cases hd : decode w with
  | ok i => exact absurd hd (h i)
  | error e =>
    rw [step_cons, runEvent, runCommand, hd]
    exact congrArg (fun r => Host.Outcome.next { s with host := rest, responses := s.responses ++ [r] })
      errorWord_illegalCommand

/-- Settles O6: the statement's three lists are the opcodes of all commands, of those of format N and of those of format B. -/
theorem illegalWordsAnswerIllegalCommand : Obligations.IllegalWordsAnswerIllegalCommand := by
  intro s w rest
  rw [← extractLsb'_immField w (by decide : 8 + 24 ≤ 32)]
  exact ⟨illegal_iff w, step_of_illegal s rest⟩

end Sys2Proof.Machine

/-! O12 and O11. The fields of a response word, and the one response word of every command. -/

namespace Sys2Proof.Machine

/-- `STAT` of a response word (R65). -/
@[simp] theorem statField_responseWord (st : Status) (info : BitVec 4) (v : Half) :
    statField (responseWord st info v) = st.code := by
  rw [statField, responseWord, BitVec.extractLsb'_append_eq_of_le (by decide),
    BitVec.extractLsb'_append_eq_of_le (by decide)]
  exact BitVec.extractLsb'_append_eq_left

/-- `INFO` of a response word (R65). -/
@[simp] theorem infoField_responseWord (st : Status) (info : BitVec 4) (v : Half) :
    infoField (responseWord st info v) = info := by
  rw [infoField, responseWord, BitVec.extractLsb'_append_eq_of_le (by decide),
    BitVec.extractLsb'_append_eq_of_le (by decide)]
  exact BitVec.extractLsb'_append_eq_right

/-- The bits between `INFO` and `VALUE` are zero (R65). -/
theorem zeroField_responseWord (st : Status) (info : BitVec 4) (v : Half) :
    (responseWord st info v).extractLsb' 16 8 = 0#8 := by
  rw [responseWord, BitVec.extractLsb'_append_eq_of_le (by decide)]
  exact BitVec.extractLsb'_append_eq_right

/-- `VALUE` of a response word (R65). -/
@[simp] theorem valueField_responseWord (st : Status) (info : BitVec 4) (v : Half) :
    valueField (responseWord st info v) = v :=
  BitVec.extractLsb'_append_eq_right

/-- Settles O12, field by field; the codes and the two example words are fixed values. -/
theorem responseWordFields : Obligations.ResponseWordFields :=
  ⟨fun st info v => ⟨statField_responseWord st info v, infoField_responseWord st info v,
    zeroField_responseWord st info v, valueField_responseWord st info v⟩, rfl, rfl, rfl, rfl, rfl, rfl, rfl,
    errorWord_field3⟩

/-- What R65 and R66 say of the fields of every response word. -/
def LawfulResponse (r : Word) : Prop :=
  (statField r).toNat ≤ 5 ∧ r.extractLsb' 16 8 = 0#8 ∧ (statField r ≠ 0#4 → valueField r = 0#16) ∧
  (statField r = 1#4 → (infoField r).toNat ≤ 3) ∧ (statField r ≠ 1#4 → infoField r = 0#4)

theorem Status.code_le (st : Status) : st.code.toNat ≤ 5 := by cases st <;> decide

/-- A response word is lawful when an error has no value, and its information belongs to its status. -/
theorem lawfulResponse_responseWord {st : Status} {info : BitVec 4} {v : Half} (hvalue : st.code ≠ 0#4 → v = 0#16)
    (hfield : st.code = 1#4 → info.toNat ≤ 3) (hinfo : st.code ≠ 1#4 → info = 0#4) :
    LawfulResponse (responseWord st info v) := by
  rw [LawfulResponse, statField_responseWord, infoField_responseWord, valueField_responseWord]
  exact ⟨st.code_le, zeroField_responseWord st info v, hvalue, hfield, hinfo⟩

theorem lawfulResponse_okWord (v : Half) : LawfulResponse (okWord v) :=
  lawfulResponse_responseWord (fun h => absurd rfl h) (fun _ => Nat.zero_le 3) (fun _ => rfl)

theorem lawfulResponse_errorWord (e : Error) : LawfulResponse (errorWord e) := by
  cases e with
  | parameterOutOfRange k =>
    have hk : (BitVec.ofNat 4 k.val).toNat ≤ 3 := (Nat.mod_le ..).trans (Nat.le_of_lt_succ k.isLt)
    exact lawfulResponse_responseWord (fun _ => rfl) (fun _ => hk) (fun h => absurd rfl h)
  | illegalCommand | sequenceError | indexOutOfRange | bufferFull =>
    exact lawfulResponse_responseWord (fun _ => rfl) (fun _ => Nat.zero_le 3) (fun _ => rfl)

/-- Every command that answers delivers one response word, and a lawful one. -/
theorem exec_delivers_lawfulResponse {i : Instr} {s t : State} (h : exec i s = .next t) :
    ∃ r, t.responses = s.responses ++ [r] ∧ LawfulResponse r := by
  cases i with
  | build =>
    replace h : execBuild s = .next t := h
    rcases execBuild_eq s with ⟨k, -, h'⟩ | ⟨-, h'⟩ <;> (rw [h'] at h; injection h with h; subst h)
    · exact ⟨_, rfl, lawfulResponse_errorWord _⟩
    · exact ⟨_, rfl, lawfulResponse_okWord _⟩
  | attach =>
    rcases execAttach_next h with ⟨-, rfl⟩ | ⟨-, frame, -, rfl⟩
    · exact ⟨_, rfl, lawfulResponse_errorWord _⟩
    · exact ⟨_, rfl, lawfulResponse_okWord _⟩
  | txRd b =>
    rcases execTxRd_next h with ⟨-, rfl⟩ | ⟨-, v, -, rfl⟩
    · exact ⟨_, rfl, lawfulResponse_errorWord _⟩
    · exact ⟨_, rfl, lawfulResponse_okWord _⟩
  | rxPush b =>
    rcases execRxPush_next h with ⟨-, rfl⟩ | ⟨-, rfl⟩
    · exact ⟨_, rfl, lawfulResponse_errorWord _⟩
    · exact ⟨_, rfl, lawfulResponse_okWord _⟩
  | verify =>
    obtain ⟨r, -, rfl⟩ := execVerify_next h
    refine ⟨_, rfl, ?_⟩
    split <;> exact lawfulResponse_okWord _
  | crcInit | crcUpd b | crcRd | parAddr v | parFunc v | parStart v | parCount v | txLen | rxClr | rxLen | reset =>
    injection h with h
    subst h
    exact ⟨_, rfl, lawfulResponse_okWord _⟩

/-- Settles O11, by what a step can do and what a command delivers. -/
theorem everyCommandGetsOneResponseWord : Obligations.EveryCommandGetsOneResponseWord := by
  intro s t h
  rcases step_next h with ⟨hh, rfl⟩ | ⟨rest, hh, rfl⟩ | ⟨w, rest, i, hh, -, h⟩ | ⟨w, rest, e, hh, -, rfl⟩
  · exact .inl ⟨hh, rfl⟩
  · exact .inr (.inl ⟨rest, hh, rfl, rfl⟩)
  · obtain ⟨hhost, -⟩ := exec_host h
    obtain ⟨r, hr, hlawful⟩ := exec_delivers_lawfulResponse h
    exact .inr (.inr ⟨w, rest, r, hh, hhost, hr, hlawful⟩)
  · exact .inr (.inr ⟨w, rest, _, hh, rfl, rfl, lawfulResponse_errorWord .illegalCommand⟩)

end Sys2Proof.Machine

/-! O1 and O7. Fixed words of the opcode map, and the pseudo-instructions. -/

namespace Sys2Proof.Machine

/-- Settles O1: the decoder runs on thirteen fixed words. -/
theorem specWordsDecode : Obligations.SpecWordsDecode :=
  ⟨rfl, rfl, rfl, rfl, rfl, rfl, rfl, rfl, rfl, rfl, rfl, rfl, rfl⟩

/-- Settles O7: each expansion is the sequence of R76 as written. -/
theorem pseudoInstructionsExpand : Obligations.PseudoInstructionsExpand :=
  ⟨fun _ => rfl, fun _ _ _ _ => rfl, rfl, fun _ => rfl, fun _ => rfl⟩

end Sys2Proof.Machine

/-! O13, O14, O15 and O16. The CRC functions bit by bit, as iterated shifts, and as folds (R80 to R85). -/

namespace Sys2Proof.Machine

/-- Every bit of a shift: the next bit up, flipped at the ones of `0xA001` when the low bit was 1 (R80). -/
theorem crcShift_getLsbD (a : Half) {i : Nat} (hi : i < 16) :
    (crcShift a).getLsbD i = (a.getLsbD (i + 1) != (a.getLsbD 0 && (i == 15 || i == 13 || i == 0))) := by
  have hpoly : ∀ j < 16, (0xA001#16).getLsbD j = (j == 15 || j == 13 || j == 0) := by decide
  rw [crcShift]
  cases ha : a.getLsbD 0 with
  | false => simp [BitVec.getLsbD_ushiftRight, Nat.add_comm]
  | true => simp [BitVec.getLsbD_xor, BitVec.getLsbD_ushiftRight, Nat.add_comm, hpoly i hi]

/-- Settles O13: the corner cases are seven fixed values. -/
theorem crcShiftBits : Obligations.CrcShiftBits :=
  ⟨fun a _ hi => crcShift_getLsbD a hi, rfl, rfl, rfl, rfl, rfl, rfl, rfl⟩

/-- Shifts by count are iterated shifts. -/
theorem crcShifts_eq_iterate (n : Nat) (a : Half) : crcShifts n a = crcShift^[n] a := by
  induction n generalizing a with
  | zero => rfl
  | succ n ih => exact ih (crcShift a)

@[simp] theorem hi8_append (h l : Byte) : hi8 (h ++ l) = h := BitVec.extractLsb'_append_eq_left

@[simp] theorem lo8_append (h l : Byte) : lo8 (h ++ l) = l := BitVec.extractLsb'_append_eq_right

/-- A 16-bit value is its two bytes. -/
@[simp] theorem hi8_append_lo8 (v : Half) : hi8 v ++ lo8 v = v :=
  (BitVec.extractLsb'_append_extractLsb'_eq_extractLsb' rfl).trans BitVec.extractLsb'_eq_self

theorem exists_eq_append (v : Half) : ∃ h l : Byte, v = h ++ l := ⟨hi8 v, lo8 v, (hi8_append_lo8 v).symm⟩

/-- A byte widened to 16 bits has a zero high byte (R13). -/
theorem zext16_eq_append (b : Byte) : zext16 b = 0#8 ++ b := BitVec.setWidth_eq_append (by decide)

/-- Absorbing a byte into an accumulator given by its two bytes: the high byte stays until the shifts (R81). -/
theorem crcByte_append (h l b : Byte) : crcByte (h ++ l) b = crcShifts 8 (h ++ (l ^^^ b)) := by
  rw [crcByte, zext16_eq_append, BitVec.xor_append, BitVec.xor_zero]

/-- Settles O14: the accumulator is its two bytes; the trace and the corner cases are fixed values. -/
theorem crcByteIsEightShifts : Obligations.CrcByteIsEightShifts := by
  refine ⟨fun a b => ?_, rfl, rfl, rfl, rfl, rfl, rfl, rfl, rfl⟩
  obtain ⟨h, l, rfl⟩ := exists_eq_append a
  rw [crcByte_append, crcShifts_eq_iterate, BitVec.extractLsb'_append_eq_left, BitVec.extractLsb'_append_eq_right]

/-- The streaming law: a fold goes on from where the fold of a first part ended (R85). -/
theorem crcFold_append (a : Half) (x y : List Byte) : crcFold a (x ++ y) = crcFold (crcFold a x) y := by
  simp only [crcFold_eq_foldl, List.foldl_append]

/-- Settles O16: the first half is how `compute_crc` is defined. -/
theorem crcFoldInPieces : Obligations.CrcFoldInPieces := ⟨fun _ => rfl, crcFold_append⟩

/-- Settles O15: the trace is that of six fixed bytes. -/
theorem computeCrcByteByByte : Obligations.ComputeCrcByteByByte :=
  ⟨rfl, computeCrc_append_singleton, rfl⟩

end Sys2Proof.Machine

/-! O17 and O18. `crc_shift` is linear and a bijection. Eight shifts move a high byte down unchanged and send a low byte to
its table entry; the table form, the residue and the injectivity facts follow (R86, R87). -/

namespace Sys2Proof.Machine

/-- `crc_shift` is linear over XOR (R86). -/
theorem crcShift_xor (x y : Half) : crcShift (x ^^^ y) = crcShift x ^^^ crcShift y := by
  apply BitVec.eq_of_getLsbD_eq
  intro i hi
  simp only [crcShift_getLsbD _ hi, BitVec.getLsbD_xor, Bool.bne_eq_xor, Bool.and_xor_distrib_right,
    Bool.xor_assoc, Bool.xor_left_comm]

theorem crcShifts_xor (n : Nat) (x y : Half) : crcShifts n (x ^^^ y) = crcShifts n x ^^^ crcShifts n y := by
  induction n generalizing x y with
  | zero => rfl
  | succ n ih => rw [crcShifts, crcShift_xor, ih, crcShifts, crcShifts]

/-- Shifts that drop zeros only are a plain right shift: the polynomial never enters. -/
theorem crcShifts_eq_ushiftRight {n : Nat} {x : Half} (h : ∀ i < n, x.getLsbD i = false) : crcShifts n x = x >>> n := by
  induction n generalizing x with
  | zero => exact (BitVec.ushiftRight_zero x).symm
  | succ n ih =>
    have hplain : crcShift x = x >>> 1 := by
      rw [crcShift, h 0 (Nat.succ_pos n), if_neg Bool.false_ne_true]
    have hrest : ∀ i < n, (x >>> 1).getLsbD i = false := fun i hi => by
      rw [BitVec.getLsbD_ushiftRight]
      exact h (1 + i) (by omega)
    rw [crcShifts, hplain, ih hrest, ← BitVec.shiftRight_add, Nat.add_comm]

theorem ushiftRight_eight (v : Half) : v >>> 8 = zext16 (hi8 v) := by
  apply BitVec.eq_of_getLsbD_eq
  intro i hi
  rw [BitVec.getLsbD_ushiftRight, zext16, hi8, BitVec.getLsbD_setWidth, BitVec.getLsbD_extractLsb']
  by_cases h8 : i < 8
  · simp [hi, h8]
  · simp [h8, BitVec.getLsbD_of_ge v (8 + i) (by omega)]

/-- Eight shifts move a high byte down unchanged. -/
theorem crcShifts_eight_append_zero (h : Byte) : crcShifts 8 (h ++ 0#8) = zext16 h := by
  rw [crcShifts_eq_ushiftRight, ushiftRight_eight, hi8_append]
  intro i hi
  rw [BitVec.getLsbD_append, if_pos hi, BitVec.getLsbD_zero]

/-- A table entry is eight shifts of the byte. -/
theorem crcTable_eq_crcShifts (i : Byte) : crcTable i = crcShifts 8 (0#8 ++ i) := by
  rw [crcTable, crcByte, zext16_eq_append, BitVec.zero_xor]

/-- Eight shifts of a 16-bit value, by its two bytes. -/
theorem crcShifts_eight_append (h l : Byte) : crcShifts 8 (h ++ l) = zext16 h ^^^ crcTable l := by
  have hsplit : h ++ l = (h ++ 0#8) ^^^ (0#8 ++ l) := by
    rw [BitVec.xor_append, BitVec.xor_zero, BitVec.zero_xor]
  rw [hsplit, crcShifts_xor, crcShifts_eight_append_zero, crcTable_eq_crcShifts]

/-- The table form (R86). -/
theorem crcByte_eq_table (a : Half) (b : Byte) : crcByte a b = (a >>> 8) ^^^ crcTable (lo8 (a ^^^ zext16 b)) := by
  obtain ⟨h, l, rfl⟩ := exists_eq_append a
  rw [crcByte_append, crcShifts_eight_append, ushiftRight_eight, hi8_append, zext16_eq_append b, BitVec.xor_append,
    lo8_append]

/-- Settles O17: the four table entries are fixed values. -/
theorem crcTableForm : Obligations.CrcTableForm :=
  ⟨crcShift_xor, crcByte_eq_table, rfl, rfl, rfl, rfl⟩

/-- Only zero shifts to zero: bit 15 of the result is the low bit, and without it the other bits only move. -/
theorem eq_zero_of_crcShift_eq_zero {x : Half} (h : crcShift x = 0#16) : x = 0#16 := by
  have hbit (i : Nat) (hi : i < 16) : x.getLsbD (i + 1) = (x.getLsbD 0 && (i == 15 || i == 13 || i == 0)) := by
    simpa [h] using (crcShift_getLsbD x hi).symm
  have hlow : x.getLsbD 0 = false := by simpa using (hbit 15 (by decide)).symm
  apply BitVec.eq_of_getLsbD_eq
  intro i hi
  cases i with
  | zero => exact hlow
  | succ i => rw [hbit i (by omega), hlow, Bool.false_and, BitVec.getLsbD_zero]

theorem crcShift_bijective : Function.Bijective crcShift := by
  refine Finite.injective_iff_bijective.mp fun x y h => ?_
  have hxor : crcShift (x ^^^ y) = 0#16 := by rw [crcShift_xor, h, BitVec.xor_self]
  exact BitVec.xor_eq_zero_iff.mp (eq_zero_of_crcShift_eq_zero hxor)

theorem crcShifts_bijective (n : Nat) : Function.Bijective (crcShifts n) := by
  rw [funext (crcShifts_eq_iterate n)]
  exact crcShift_bijective.iterate n

theorem crcShifts_inj {n : Nat} {x y : Half} : crcShifts n x = crcShifts n y ↔ x = y :=
  (crcShifts_bijective n).injective.eq_iff

/-- Absorbing a byte is a bijection of the accumulator: an XOR, then the shifts (R87 (a)). -/
theorem crcByte_bijective (b : Byte) : Function.Bijective (fun a : Half => crcByte a b) := by
  have hxor : Function.Injective (fun a : Half => a ^^^ zext16 b) := fun x y => (BitVec.xor_left_inj _).mp
  exact (crcShifts_bijective 8).comp (Finite.injective_iff_bijective.mp hxor)

theorem append_inj_iff (h l h' l' : Byte) : h ++ l = h' ++ l' ↔ h = h' ∧ l = l' := by
  refine ⟨fun e => ⟨?_, ?_⟩, fun ⟨hh, hl⟩ => by rw [hh, hl]⟩
  · simpa using congrArg hi8 e
  · simpa using congrArg lo8 e

/-- Eight shifts leave a byte only of a value whose low byte is zero. -/
theorem crcShifts_eight_eq_zext16_iff (x : Half) (h : Byte) : crcShifts 8 x = zext16 h ↔ x = h ++ 0#8 := by
  rw [← crcShifts_eight_append_zero, crcShifts_inj]

/-- A table entry is below 256 only at 0 (R87 (b)). -/
theorem crcTable_lt_iff (i : Byte) : (crcTable i).toNat < 256 ↔ i = 0#8 := by
  refine ⟨fun hlt => ?_, fun h => by rw [h]; decide⟩
  have hbyte : crcTable i = zext16 (lo8 (crcTable i)) := by
    apply BitVec.eq_of_toNat_eq
    rw [zext16, lo8, BitVec.toNat_setWidth, BitVec.extractLsb'_toNat]
    simp
    omega
  rw [crcTable_eq_crcShifts, crcShifts_eight_eq_zext16_iff, append_inj_iff] at hbyte
  exact hbyte.2

/-- Two bytes take an accumulator to zero exactly when they are its own, low byte first (R87 (c)). -/
theorem crcByte_crcByte_eq_zero_iff (c : Half) (x y : Byte) : crcByte (crcByte c x) y = 0#16 ↔ y ++ x = c := by
  have hlast (d : Half) : crcByte d y = 0#16 ↔ d = zext16 y := by
    rw [show 0#16 = zext16 0#8 from rfl, crcByte, crcShifts_eight_eq_zext16_iff, BitVec.zero_append_zero]
    exact BitVec.xor_eq_zero_iff
  obtain ⟨h, l, rfl⟩ := exists_eq_append c
  rw [hlast, crcByte_append, crcShifts_eight_eq_zext16_iff, append_inj_iff, append_inj_iff, BitVec.xor_eq_zero_iff]
  exact and_congr eq_comm eq_comm

/-- Settles O18: the CRC of two more bytes is the CRC so far with the two absorbed. -/
theorem crcResidueAndInjectivity : Obligations.CrcResidueAndInjectivity := by
  refine ⟨crcByte_bijective, crcTable_lt_iff, fun c x y => ?_, fun body x y => ?_⟩
  · obtain ⟨h, l, rfl⟩ := exists_eq_append c
    rw [BitVec.extractLsb'_append_eq_left, BitVec.extractLsb'_append_eq_right]
    exact (crcByte_crcByte_eq_zero_iff _ x y).trans ((append_inj_iff y x h l).trans and_comm)
  · rw [computeCrc, crcFold_append]
    exact crcByte_crcByte_eq_zero_iff _ x y

end Sys2Proof.Machine

/-! O19, O20, O21 and O22. What the CRC commands do, and what a stream of them computes (R90 to R93). -/

namespace Sys2Proof.Machine

/-- Settles O19: the meaning of `CRC.INIT` run on any state (R90). -/
theorem crcInitSetsInitialValue : Obligations.CrcInitSetsInitialValue := by
  intro s
  rw [exec, execCrcInit, respond_eq, okWord_zero]
  rfl

/-- Settles O20: the meaning of `CRC.UPD` run on any state (R91). -/
theorem crcUpdAbsorbsByte : Obligations.CrcUpdAbsorbsByte := by
  intro b s
  rw [exec, execCrcUpd, respond_eq, okWord_zero]
  rfl

/-- Settles O21: the response word is `ACC`, zero-extended (R92). -/
theorem crcRdAnswersAccumulator : Obligations.CrcRdAnswersAccumulator := by
  intro s
  rw [exec, execCrcRd, respond_eq, okWord_eq_setWidth]
  rfl

/-- A step on an encoded command, from a state within the invariants: the command has its effect on `ACC`, and its word is
consumed and answered. -/
theorem step_encoded_safe {s : State} {i : Instr} {rest : List HostEvent} (hs : s.Inv)
    (hhost : s.host = .command (encode i) :: rest) :
    ∃ (t : State) (r : Word), step s = .next t ∧ t.Inv ∧ t.host = rest ∧ t.acc = (writeRegisters i s).acc ∧
      t.responses = s.responses ++ [r] := by
  obtain ⟨t, hexec, ht⟩ := exec_safe (s := { s with host := rest }) i hs
  obtain ⟨hrest, r, hr⟩ := exec_host hexec
  obtain ⟨hacc, -⟩ := exec_registers hexec
  have hport : (writeRegisters i { s with host := rest }).acc = (writeRegisters i s).acc := by cases i <;> rfl
  exact ⟨t, r, step_of_decode hhost (decode_encode i) hexec, ht, hrest, hacc.trans hport, hr⟩

/-- What a command that does not start the CRC again leaves in `ACC`: the byte it absorbs, if any, folded in (R20, R91). -/
theorem writeRegisters_acc_eq_crcFold {i : Instr} (s : State) (hinit : i ≠ .crcInit) (hreset : i ≠ .reset) :
    (writeRegisters i s).acc = crcFold s.acc (absorbedByte i).toList := by
  cases i with
  | crcInit => exact absurd rfl hinit
  | reset => exact absurd rfl hreset
  | crcUpd b | crcRd | parAddr v | parFunc v | parStart v | parCount v | build | attach | txLen | txRd b | rxClr | rxPush b
  | rxLen | verify => rfl

/-- The bytes a program absorbs, its first command's before the others'. -/
theorem filterMap_absorbedByte_cons (i : Instr) (is : List Instr) :
    (i :: is).filterMap absorbedByte = (absorbedByte i).toList ++ is.filterMap absorbedByte := by
  simp only [List.filterMap_eq_flatMap_toList, List.flatMap_cons]

/-- A run of commands that do not start the CRC again folds the bytes absorbed into `ACC`, and answers every command. -/
theorem runSteps_crcFold {s : State} {is : List Instr} {rest : List HostEvent} (hs : s.Inv)
    (hhost : s.host = hostProgram is ++ rest) (hinit : .crcInit ∉ is) (hreset : .reset ∉ is) :
    ∃ (t : State) (answers : List Word), runSteps is.length s = .next t ∧ t.host = rest ∧ answers.length = is.length ∧
      t.acc = crcFold s.acc (is.filterMap absorbedByte) ∧ t.responses = s.responses ++ answers := by
  induction is generalizing s with
  | nil => exact ⟨s, [], rfl, hhost, rfl, rfl, (List.append_nil _).symm⟩
  | cons i is ih =>
    rw [List.mem_cons, not_or] at hinit hreset
    obtain ⟨u, r, hstep, hu, hrest, hacc, hr⟩ := step_encoded_safe hs hhost
    obtain ⟨t, answers, hrun, ht, hlen, hfold, hanswers⟩ := ih hu hrest hinit.2 hreset.2
    refine ⟨t, r :: answers, (runSteps_succ hstep).trans hrun, ht, congrArg _ hlen, ?_, ?_⟩
    · rw [hfold, hacc, writeRegisters_acc_eq_crcFold s (Ne.symm hinit.1) (Ne.symm hreset.1), filterMap_absorbedByte_cons,
        crcFold_append]
    · rw [hanswers, hr, List.append_assoc, List.singleton_append]

/-- Settles O22: the first command sets `ACC` to the initial value, the run after it folds the bytes in, and `CRC.RD`
answers the fold. -/
theorem crcStreamComputesCrc : Obligations.CrcStreamComputesCrc := by
  intro s first is rest hs hfirst hinit _ hreset
  have hstart (s' : State) : (writeRegisters first s').acc = 0xFFFF#16 := by
    rcases hfirst with rfl | rfl <;> rfl
  obtain ⟨u, r, hstep, hu, hhost, hacc, hr⟩ := step_encoded_safe (i := first)
    (s := { s with host := hostProgram (first :: (is ++ [.crcRd])) ++ rest })
    (rest := hostProgram is ++ (hostProgram [.crcRd] ++ rest)) hs (by simp)
  obtain ⟨v, answers, hrun, hv, hlen, hfold, hanswers⟩ := runSteps_crcFold hu hhost hinit hreset
  rw [hacc, hstart] at hfold
  have hread := step_of_decode hv (decode_encode .crcRd) (crcRdAnswersAccumulator { v with host := rest })
  refine ⟨{ v with host := rest, responses := v.responses ++ [v.acc.setWidth 32] }, r :: answers, ?_, rfl,
    congrArg _ hlen, hfold, ?_⟩
  · rw [runSteps_succ hstep, runSteps_add 1 hrun, runSteps_succ hread, runSteps_zero]
  · show v.responses ++ [v.acc.setWidth 32] = _
    rw [hfold, hanswers, hr, computeCrc]
    simp

end Sys2Proof.Machine

/-! O46. A command that only answers answers the same again; a write of a fixed value over itself changes nothing (R50). -/

namespace Sys2Proof.Machine

/-- A command that changed nothing but to deliver a response word delivers the same word again: no command reads the words
delivered before. -/
theorem exec_repeat_of_answer {i : Instr} {s : State} {r : Word} (h : exec i s = .next (s.answer r)) :
    exec i (s.answer r) = .next ((s.answer r).answer r) := by
  obtain ⟨r', -, hr, hports⟩ := commandsDoNotReadThePorts i s _ h
  obtain rfl : r = r' := by simpa using hr
  exact hports s.host (s.responses ++ [r])

/-- The five reads change nothing but to deliver a response word. -/
theorem exec_read {i : Instr} {s t : State} (hi : (∃ b, i = .txRd b) ∨ i ∈ [Instr.txLen, .rxLen, .crcRd, .verify])
    (h : exec i s = .next t) : ∃ r, t = s.answer r := by
  cases i with
  | txRd b => rcases execTxRd_next h with ⟨-, h⟩ | ⟨-, v, -, h⟩ <;> exact ⟨_, h⟩
  | verify =>
    obtain ⟨r, -, h⟩ := execVerify_next h
    exact ⟨_, h⟩
  | txLen | rxLen | crcRd =>
    injection h with h
    exact ⟨_, h.symm⟩
  | crcInit | crcUpd b | parAddr v | parFunc v | parStart v | parCount v | build | attach | rxClr | rxPush b | reset =>
    simp at hi

/-- `RXLEN <- 0` leaves an empty buffer, whatever it held (R125). -/
theorem State.setRxLen_zero (s : State) : s.setRxLen 0#16 = { s with rxLen := 0#16, rxBuf := [] } := by
  simp [State.setRxLen]

/-- The writes that accumulate nothing change nothing more when repeated: a failed `BUILD` only answers, any other of them
sets what it writes to the value it has just set. -/
theorem exec_write_repeat {i : Instr} {s t : State} (hwf : s.txBuf.wf)
    (hi : i ∈ [Instr.crcInit, .rxClr, .build, .reset] ∨
      ∃ v, i ∈ [Instr.parAddr v, .parFunc v, .parStart v, .parCount v])
    (h : exec i s = .next t) : ∃ r, exec i t = .next (t.answer r) := by
  cases i with
  | build =>
    rcases execBuild_eq s with ⟨k, -, hbad⟩ | ⟨hvalid, -⟩
    · obtain rfl : s.answer _ = t := Host.Outcome.next.inj (hbad.symm.trans h)
      exact ⟨_, exec_repeat_of_answer h⟩
    · rw [exec_build_valid hwf hvalid] at h
      injection h with h
      subst h
      exact ⟨_, exec_build_valid (Memory.wf_ofBytes 0 _) hvalid⟩
  | crcInit | parAddr v | parFunc v | parStart v | parCount v =>
    injection h with h
    subst h
    exact ⟨_, rfl⟩
  | rxClr =>
    injection h with h
    subst h
    exact ⟨_, by rw [exec, execRxClr, respond_eq, State.setRxLen_zero, State.setRxLen_zero s]; rfl⟩
  | reset =>
    injection h with h
    subst h
    exact ⟨_, by rw [exec, execReset, respond_eq, State.resetBlock_eq, State.resetBlock_eq s]; rfl⟩
  | crcUpd b | crcRd | attach | txLen | txRd b | rxPush b | rxLen | verify => simp at hi

/-- Settles O46: the reads only answer, the writes overwrite what they wrote, and `TXLEN` is 8 after an `ATTACH`. -/
theorem readsAreFreeAndWritesIdempotent : Obligations.ReadsAreFreeAndWritesIdempotent := by
  refine ⟨fun i s t hi h => ?_, fun i s t hwf hi h => exec_write_repeat hwf hi h, fun s t h6 h => ?_⟩
  · obtain ⟨r, rfl⟩ := exec_read hi h
    exact ⟨r, rfl, exec_repeat_of_answer h⟩
  · rcases execAttach_next h with ⟨hne, -⟩ | ⟨-, frame, -, rfl⟩
    · exact absurd h6 hne
    · rw [exec, execAttach_reject _ (by simp), errorWord_sequenceError]
      rfl

end Sys2Proof.Machine

/-! O23, O24, O25 and O32. The functions of the frame builder (R100 to R103): the ranges of the parameters, what the packed
bytes are worth, and that a sequence with its CRC attached passes the validator. -/

namespace Sys2Proof.Machine

/-- Settles O23, one case per test of `check_params`, in the order the fields are tested (R101). -/
theorem checkParamsReportsLowestBadField : Obligations.CheckParamsReportsLowestBadField := by
  intro a f s c
  rw [checkParams]
  split
  case isTrue ha => simp; omega
  case isFalse ha =>
    split
    case isTrue hf => simp; omega
    case isFalse hf =>
      split
      case isTrue hs => simp; omega
      case isFalse hs =>
        split
        case isTrue hc => simp; omega
        case isFalse hc => simp; omega

/-- Parameters in range are in the ranges of R100. -/
theorem le_of_checkParams_valid {a f s c : Nat} (h : checkParams a f s c = .valid) :
    a ≤ 255 ∧ f ≤ 255 ∧ s ≤ 65535 ∧ 1 ≤ c ∧ c ≤ 125 :=
  (checkParamsReportsLowestBadField a f s c).1.mp h

theorem toNat_byte0 (v : Word) : (byte0 v).toNat = v.toNat % 256 := by
  simp [byte0, BitVec.extractLsb'_toNat]

theorem toNat_byte1 (v : Word) : (byte1 v).toNat = v.toNat / 256 % 256 := by
  simp [byte1, BitVec.extractLsb'_toNat, Nat.shiftRight_eq_div_pow]

/-- Settles O24: within the ranges the bytes cut off from a parameter are zero (R102). -/
theorem buildRequestPacksFields : Obligations.BuildRequestPacksFields := by
  refine ⟨fun a f s c hvalid => ?_, by decide⟩
  obtain ⟨ha, hf, hs, -, hc⟩ := le_of_checkParams_valid hvalid
  have hfifth : byte1 c = 0x00#8 := BitVec.eq_of_toNat_eq (by rw [toNat_byte1, BitVec.toNat_ofNat]; omega)
  refine ⟨_, _, _, _, _, _, rfl, ?_, ?_, ?_, hfifth, ?_⟩
  · rw [toNat_byte0]; omega
  · rw [toNat_byte0]; omega
  · rw [toNat_byte0, toNat_byte1]; omega
  · rw [toNat_byte0, toNat_byte1]; omega

/-- A 16-bit value is worth its high byte times 256 and its low byte (R12). -/
theorem toNat_hi8_mul_add_lo8 (v : Half) : (hi8 v).toNat * 256 + (lo8 v).toNat = v.toNat := by
  have := v.isLt
  simp only [hi8, lo8, BitVec.extractLsb'_toNat, Nat.shiftRight_eq_div_pow]
  omega

theorem length_attachCrc (frame : List Byte) : (attachCrc frame).length = frame.length + 2 := by
  simp [attachCrc, crcBytes]

/-- Settles O25: the two bytes appended are the CRC's low and high byte (R103). -/
theorem attachCrcAppendsLowByteFirst : Obligations.AttachCrcAppendsLowByteFirst := by
  refine ⟨fun frame hsix => ?_, ?_⟩
  · exact ⟨lo8 (computeCrc frame), hi8 (computeCrc frame), rfl, by rw [length_attachCrc, hsix], toNat_hi8_mul_add_lo8 _⟩
  · have hcrc : computeCrc [0x01#8, 0x03#8, 0x00#8, 0x01#8, 0x00#8, 0x02#8] = 0xCB95#16 := by
      simp [computeCrc, crcByte, crcShifts, crcShift, zext16]
    rw [attachCrc, crcBytes, hcrc]
    rfl

/-- A sequence of one byte or more with its CRC attached passes the validator: the two orders of the CRC's bytes agree
(R103, R120). -/
theorem verifyBytes_attachCrc {frame : List Byte} (h : frame ≠ []) : verifyBytes (attachCrc frame) = true := by
  have hpos := List.length_pos_iff.mpr h
  rw [verifyBytes, length_attachCrc, if_neg (by omega)]
  simp [attachCrc, crcBytes, le16]

/-- Settles O32: a request is not empty (R114). -/
theorem requestFrameVerifies : Obligations.RequestFrameVerifies :=
  fun _ _ _ _ _ => verifyBytes_attachCrc (List.cons_ne_nil _ _)

end Sys2Proof.Machine

/-! O26, O27, O28, O29 and O30. What each command of the frame builder does and answers (R105 to R112, R127). -/

namespace Sys2Proof.Machine

/-- A parameter command stores its operand unchecked and answers 0 (R105 to R108). -/
theorem exec_parAddr (v : Word) (s : State) :
    exec (.parAddr v) s = .next { s with parAddr := v, responses := s.responses ++ [0x00000000#32] } := by
  rw [exec, execParAddr, respond_eq, okWord_zero]
  rfl

theorem exec_parFunc (v : Word) (s : State) :
    exec (.parFunc v) s = .next { s with parFunc := v, responses := s.responses ++ [0x00000000#32] } := by
  rw [exec, execParFunc, respond_eq, okWord_zero]
  rfl

theorem exec_parStart (v : Word) (s : State) :
    exec (.parStart v) s = .next { s with parStart := v, responses := s.responses ++ [0x00000000#32] } := by
  rw [exec, execParStart, respond_eq, okWord_zero]
  rfl

theorem exec_parCount (v : Word) (s : State) :
    exec (.parCount v) s = .next { s with parCount := v, responses := s.responses ++ [0x00000000#32] } := by
  rw [exec, execParCount, respond_eq, okWord_zero]
  rfl

/-- Settles O26, command by command. -/
theorem parameterCommandsStoreOperand : Obligations.ParameterCommandsStoreOperand :=
  fun v s => ⟨exec_parAddr v s, exec_parFunc v s, exec_parStart v s, exec_parCount v s⟩

/-- `BUILD` with a parameter out of range delivers the error of the lowest bad field and changes nothing else (R109, R151). -/
theorem exec_build_outOfRange {s : State} {k : Fin 4} (h : s.checkParams = .outOfRange k) :
    exec .build s = .next (s.answer (errorWord (.parameterOutOfRange k))) := by
  rw [exec, execBuild, h]
  rfl

/-- Settles O27: `check_params` on the four registers decides between the two outcomes of `BUILD`. -/
theorem buildPacksOrRejects : Obligations.BuildPacksOrRejects := by
  intro s hwf
  obtain ⟨hvalid, hfield0, hfield1, hfield2, hfield3⟩ := checkParamsReportsLowestBadField
    s.parAddr.toNat s.parFunc.toNat s.parStart.toNat s.parCount.toNat
  refine ⟨fun ha hf hs hc hc' => ?_, fun ha => ?_, fun ha hf => ?_, fun ha hf hs => ?_, fun ha hf hs hc => ?_⟩
  · exact exec_build_valid hwf (hvalid.mpr ⟨ha, hf, hs, hc, hc'⟩)
  · rw [exec_build_outOfRange (hfield0.mpr ha), errorWord_field0]; rfl
  · rw [exec_build_outOfRange (hfield1.mpr ⟨ha, hf⟩), errorWord_field1]; rfl
  · rw [exec_build_outOfRange (hfield2.mpr ⟨ha, hf, hs⟩), errorWord_field2]; rfl
  · rw [exec_build_outOfRange (hfield3.mpr ⟨ha, hf, hs, hc⟩), errorWord_field3]; rfl

/-- `ATTACH` without a six-byte frame delivers `SequenceError` and changes nothing else (R110, R153). -/
theorem exec_attach_reject {s : State} (h : s.txLen ≠ 6#4) :
    exec .attach s = .next { s with responses := s.responses ++ [0x30000000#32] } := by
  rw [exec, execAttach_reject s h, errorWord_sequenceError]
  rfl

/-- Settles O28: `TXLEN` decides between the two outcomes of `ATTACH`. -/
theorem attachAppendsCrcOrRejects : Obligations.AttachAppendsCrcOrRejects :=
  ⟨fun _ _ => exec_attach_frame, fun _ => exec_attach_reject⟩

/-- Settles O29: the ranges of the two lengths are the invariants of R26, and `RXLEN` has the bits for `RX_CAP` (R23). -/
theorem lengthCommandsAnswerLengths : Obligations.LengthCommandsAnswerLengths := by
  intro s
  refine ⟨?_, ?_, fun ⟨⟨_, htx⟩, _⟩ => ?_, fun ⟨_, _, hcap⟩ => ⟨hcap, hcap.trans_lt (rxCap_lt s.rxCap)⟩⟩
  · rw [exec, execTxLen, respond_eq, okWord_eq_setWidth, zext16, BitVec.setWidth_setWidth (by decide)]
    rfl
  · rw [exec, execRxLen, respond_eq, okWord_eq_setWidth, zext16, BitVec.setWidth_eq]
    rfl
  · exact htx.imp_right (Or.imp And.left And.left)

/-- A buffer that holds `n` bytes has a byte at every index below `n`. -/
theorem Memory.holds.exists_read {m : Memory} {n i : Nat} (h : m.holds n) (hi : i < n) : ∃ v, m.read i = some v :=
  ⟨m.bytes[i]'(h.1.symm ▸ hi), by rw [h.read, List.getElem?_eq_getElem]⟩

/-- `TX.RD` below `TXLEN` answers the byte it reads (R112). -/
theorem execTxRd_below {s : State} {b v : Byte} (hb : b.toNat < s.txLen.toNat)
    (hread : memRead .tx Config.txCap b.toNat s = .ok v) : execTxRd b s = .next (s.answer (okWord (zext16 v))) := by
  rw [execTxRd, if_neg (Nat.not_le.mpr hb), hread, withAccess_ok, respond_eq]

/-- `TX.RD` at or above `TXLEN` delivers `IndexOutOfRange` and changes nothing else (R112, R154). -/
theorem execTxRd_above {s : State} {b : Byte} (hb : s.txLen.toNat ≤ b.toNat) :
    execTxRd b s = .next (s.answer (errorWord .indexOutOfRange)) := by
  rw [execTxRd, if_pos hb, raise_eq]

/-- Settles O30: within the invariants every index below `TXLEN` is in the TX space and has its byte. -/
theorem txRdAnswersByteOrRejects : Obligations.TxRdAnswersByteOrRejects := by
  intro b s ⟨htx, _⟩
  refine ⟨fun hb => ?_, fun hb => ?_⟩
  · obtain ⟨v, hv⟩ := htx.1.exists_read hb
    have hread : memRead .tx Config.txCap b.toNat s = .ok v := memRead_eq_ok.mpr ⟨hb.trans_le htx.txLen_le, hv⟩
    refine ⟨v, hv, ?_⟩
    rw [exec, execTxRd_below hb hread, okWord_eq_setWidth, zext16, BitVec.setWidth_setWidth (by decide)]
    rfl
  · rw [exec, execTxRd_above hb, errorWord_indexOutOfRange]
    rfl

end Sys2Proof.Machine

/-! O31. The `REQUEST` sequence as a run: the four parameter commands, then `BUILD`, then `ATTACH` (R113). -/

namespace Sys2Proof.Machine

/-- A run on an encoded command goes on from what the command answers. -/
theorem runSteps_encode {n : Nat} {s t : State} {i : Instr} {is : List Instr} {rest : List HostEvent}
    (hhost : s.host = hostProgram (i :: is) ++ rest) (h : exec i { s with host := hostProgram is ++ rest } = .next t) :
    runSteps (n + 1) s = runSteps n t :=
  runSteps_succ (step_of_decode hhost (decode_encode i) h)

/-- The state after the parameter commands of `REQUEST`, with these events still to send. -/
def State.afterPars (s : State) (a f st c : Word) (host : List HostEvent) : State :=
  { s with
    parAddr := a, parFunc := f, parStart := st, parCount := c, host
    responses := s.responses ++ List.replicate 4 0x00000000#32 }

/-- The parameter commands of `REQUEST` store the four operands and answer 0 each, and the run goes on (R105 to R108). -/
theorem runSteps_parCommands {n : Nat} {s : State} {a f st c : Word} {is : List Instr} {rest : List HostEvent}
    (hhost : s.host = hostProgram (.parAddr a :: .parFunc f :: .parStart st :: .parCount c :: is) ++ rest) :
    runSteps (n + 4) s = runSteps n (s.afterPars a f st c (hostProgram is ++ rest)) := by
  rw [runSteps_encode hhost (exec_parAddr a _), runSteps_encode rfl (exec_parFunc f _),
    runSteps_encode rfl (exec_parStart st _), runSteps_encode rfl (exec_parCount c _)]
  simp [State.afterPars, List.replicate_succ]

/-- The response word of a parameter out of range as a number: status 1, then the field (R65, R151). -/
theorem errorWord_parameterOutOfRange (k : Fin 4) :
    errorWord (.parameterOutOfRange k) = 0x10000000#32 + BitVec.ofNat 32 (k.val * 2 ^ 24) := by
  revert k
  decide

/-- Within the request side of the invariants `ATTACH` answers by the `TXLEN` it finds (R110). -/
theorem exec_attach_answers {s : State} (hs : s.TxInv) :
    ∃ t, exec .attach s = .next t ∧
      t.responses = s.responses ++ [if s.txLen = 6#4 then 0x00000000#32 else 0x30000000#32] := by
  obtain ⟨⟨-, hbuf⟩, hframe⟩ := hs
  by_cases h6 : s.txLen = 6#4
  · have hreq : IsRequest s.txBuf.bytes := by simpa [h6] using hframe
    exact ⟨_, exec_attach_frame h6 (length_of_isRequest hreq) hbuf, by rw [if_pos h6]⟩
  · exact ⟨_, exec_attach_reject h6, by rw [if_neg h6]⟩

/-- Settles O31: after the parameter commands `check_params` is that of the operands, and the TX side is as it was. -/
theorem requestSequenceBuildsFrame : Obligations.RequestSequenceBuildsFrame := by
  intro s a f st c rest ⟨htx, _⟩
  refine ⟨fun hvalid => ?_, fun k hbad => ?_⟩
  · have hbuild := exec_build_valid (s := s.afterPars a f st c (hostProgram [.attach] ++ rest)) htx.1.wf hvalid
    rw [runSteps_parCommands rfl, runSteps_encode rfl hbuild, runSteps_encode rfl (exec_attach_frame rfl rfl rfl),
      runSteps_zero]
    simp [State.afterPars, List.replicate_succ]
  · have hbuild (is : List Instr) := exec_build_outOfRange (s := s.afterPars a f st c (hostProgram is ++ rest)) hbad
    rw [← errorWord_parameterOutOfRange]
    constructor
    · rw [runSteps_parCommands rfl, runSteps_encode rfl (hbuild []), runSteps_zero]
      rfl
    · obtain ⟨t, ht, hr⟩ := exec_attach_answers
        (s := (s.afterPars a f st c rest).answer (errorWord (.parameterOutOfRange k))) htx
      refine ⟨t, ?_, hr.trans (List.append_assoc ..)⟩
      rw [runSteps_parCommands rfl, runSteps_encode rfl (hbuild [.attach]), runSteps_encode rfl ht, runSteps_zero]

end Sys2Proof.Machine

/-! O57. The frame of `BUILD` and `ATTACH`. -/

namespace Sys2Proof.Machine

/-- What is read once a sequence is written and the length put right after it: the sequence from its first index on, the old
bytes below. -/
theorem Memory.read_truncate_writeSeq (m : Memory) (i : Nat) (bs : List Byte) (a : Nat) :
    ((m.writeSeq i bs).truncate (i + bs.length)).read a = if i ≤ a then bs[a - i]? else m.read a := by
  rw [Memory.read_truncate, Memory.read_writeSeq]
  by_cases hlow : a < i
  · rw [if_pos (by omega), if_neg (by omega), if_neg (by omega)]
  · by_cases hlen : a < i + bs.length
    · rw [if_pos hlen, if_pos (by omega), if_pos (by omega)]
    · rw [if_neg hlen, if_pos (by omega), List.getElem?_eq_none (by omega)]

/-- `BUILD` and `ATTACH` leave the RX space. -/
theorem exec_rx_of_build_or_attach {i : Instr} {s t : State} (hi : i = .build ∨ i = .attach) (h : exec i s = .next t) :
    t.rxLen = s.rxLen ∧ t.rxBuf = s.rxBuf := by
  rcases hi with rfl | rfl
  · rcases execBuild_eq s with ⟨k, -, h'⟩ | ⟨-, h'⟩ <;> obtain rfl := Host.Outcome.next.inj (h'.symm.trans h) <;>
      exact ⟨rfl, rfl⟩
  · rcases execAttach_next h with ⟨-, rfl⟩ | ⟨-, frame, -, rfl⟩ <;> exact ⟨rfl, rfl⟩

/-- A `BUILD` that packs leaves the request's bytes and no other, whatever the buffer held (R109). -/
theorem exec_build_read {s t : State} (hvalid : s.checkParams = .valid) (h : exec .build s = .next t) :
    t.txLen = 6#4 ∧ ∀ a, t.txBuf.read a = (buildRequest s.parAddr s.parFunc s.parStart s.parCount)[a]? := by
  rcases execBuild_eq s with ⟨k, hbad, -⟩ | ⟨-, h'⟩
  · rw [hbad] at hvalid
    cases hvalid
  · obtain rfl := Host.Outcome.next.inj (h'.symm.trans h)
    exact ⟨rfl, Memory.read_truncate_writeSeq s.txBuf 0 (buildRequest s.parAddr s.parFunc s.parStart s.parCount)⟩

/-- An `ATTACH` that appends leaves the six bytes of the frame and no byte beyond the two it stores (R110). -/
theorem exec_attach_read {s t : State} (h6 : s.txLen = 6#4) (h : exec .attach s = .next t) :
    t.txLen = 8#4 ∧ (∀ a, a < 6 → t.txBuf.read a = s.txBuf.read a) ∧ (∀ a, 8 ≤ a → t.txBuf.read a = none) := by
  rcases execAttach_next h with ⟨hne, -⟩ | ⟨-, frame, -, rfl⟩
  · exact absurd h6 hne
  · have hread := Memory.read_truncate_writeSeq s.txBuf 6 (crcBytes frame)
    have hlen : (crcBytes frame).length = 2 := rfl
    refine ⟨rfl, fun a ha => (hread a).trans (if_neg (by omega)), fun a ha => (hread a).trans ?_⟩
    rw [if_pos (by omega), List.getElem?_eq_none (by omega)]

/-- Settles O57: `check_params` and `TXLEN` decide whether the TX space is written. -/
theorem frameOfBuildAndAttach : Obligations.FrameOfBuildAndAttach := by
  intro i s t hi h
  have hregs : writeRegisters i s = s := by rcases hi with rfl | rfl <;> rfl
  obtain ⟨hacc, hAddr, hFunc, hStart, hCount, hrxCap⟩ := hregs ▸ exec_registers h
  obtain ⟨hhost, -⟩ := exec_host h
  obtain ⟨hrxLen, hrxBuf⟩ := exec_rx_of_build_or_attach hi h
  refine ⟨hacc, hAddr, hFunc, hStart, hCount, hrxLen, hrxCap, hhost, fun a => by rw [hrxBuf], ?_, ?_, ?_, ?_⟩
  · rintro rfl hbad
    cases hcheck : s.checkParams with
    | valid => exact absurd hcheck hbad
    | outOfRange k =>
      obtain rfl := Host.Outcome.next.inj ((exec_build_outOfRange hcheck).symm.trans h)
      exact ⟨rfl, fun _ => rfl⟩
  · rintro rfl hvalid
    exact exec_build_read hvalid h
  · rintro rfl h6
    obtain rfl := Host.Outcome.next.inj ((exec_attach_reject h6).symm.trans h)
    exact ⟨rfl, fun _ => rfl⟩
  · rintro rfl h6
    exact exec_attach_read h6 h

end Sys2Proof.Machine

/-! O49. Bytes at or above a length register are not observable (R35): with other such bytes a command reads the same bytes,
and its answer is a function of those and of the registers. -/

namespace Sys2Proof.Machine

/-- Reads from index 0 on depend on the bytes below their number only. -/
theorem memReadSeq_of_agree {sp : Space} {size n : Nat} {s s' : State} {bs : List Byte}
    (hagree : ∀ a, a < n → (s'.buf sp).read a = (s.buf sp).read a) (h : memReadSeq sp size s 0 n = .ok bs) :
    memReadSeq sp size s' 0 n = .ok bs := by
  obtain ⟨hlen, hread⟩ := (memReadSeq_eq_ok n 0 bs).mp h
  refine (memReadSeq_eq_ok n 0 bs).mpr ⟨hlen, fun k hk => ?_⟩
  rw [hagree (0 + k) (by omega)]
  exact hread k hk

/-- `VERIFY` judges the bytes it reads (R128). -/
theorem execVerify_of_read {s : State} {bytes : List Byte}
    (h : memReadSeq .rx s.rxCap.toNat s 0 s.rxLen.toNat = .ok bytes) :
    execVerify s = .next (s.answer (if verifyBytes bytes then okWord 1#16 else okWord 0#16)) := by
  rw [execVerify, h, withAccess_ok]
  split <;> rfl

/-- Every command gives the same answer with other bytes at or above the length registers. -/
theorem exec_answer_of_agree {i : Instr} {s t : State} {m m' : Memory}
    (htx : ∀ a, a < s.txLen.toNat → m.read a = s.txBuf.read a)
    (hrx : ∀ a, a < s.rxLen.toNat → m'.read a = s.rxBuf.read a) (h : exec i s = .next t) :
    ∃ t' r, exec i { s with txBuf := m, rxBuf := m' } = .next t' ∧ t.responses = s.responses ++ [r] ∧
      t'.responses = s.responses ++ [r] := by
  cases i with
  | build =>
    rcases execBuild_eq s with ⟨k, hbad, h'⟩ | ⟨hvalid, h'⟩ <;> obtain rfl := Host.Outcome.next.inj (h'.symm.trans h)
    · exact ⟨_, _, exec_build_outOfRange hbad, rfl, rfl⟩
    · rcases execBuild_eq { s with txBuf := m, rxBuf := m' } with ⟨k, hbad, -⟩ | ⟨-, h''⟩
      · cases hbad.symm.trans hvalid
      · exact ⟨_, _, h'', rfl, rfl⟩
  | attach =>
    rcases execAttach_next h with ⟨hne, rfl⟩ | ⟨h6, frame, hframe, rfl⟩
    · exact ⟨_, _, execAttach_reject _ hne, rfl, rfl⟩
    · have hsame : memReadSeq .tx Config.txCap { s with txBuf := m, rxBuf := m' } 0 Config.frameLen = .ok frame :=
        memReadSeq_of_agree (fun a ha => htx a (h6 ▸ ha)) hframe
      exact ⟨_, _, execAttach_accept { s with txBuf := m, rxBuf := m' } h6 hsame, rfl, rfl⟩
  | txRd b =>
    rcases execTxRd_next h with ⟨hb, rfl⟩ | ⟨hb, v, hv, rfl⟩
    · exact ⟨_, _, execTxRd_above hb, rfl, rfl⟩
    · obtain ⟨hcap, hread⟩ := memRead_eq_ok.mp hv
      have hsame : memRead .tx Config.txCap b.toNat { s with txBuf := m, rxBuf := m' } = .ok v :=
        memRead_eq_ok.mpr ⟨hcap, (htx _ hb).trans hread⟩
      exact ⟨_, _, execTxRd_below hb hsame, rfl, rfl⟩
  | rxPush b =>
    rcases execRxPush_next h with ⟨hfull, rfl⟩ | ⟨hroom, rfl⟩
    · exact ⟨_, _, execRxPush_full hfull, rfl, rfl⟩
    · exact ⟨_, _, execRxPush_room hroom, rfl, rfl⟩
  | verify =>
    obtain ⟨bytes, hbytes, rfl⟩ := execVerify_next h
    have hsame : memReadSeq .rx s.rxCap.toNat { s with txBuf := m, rxBuf := m' } 0 s.rxLen.toNat = .ok bytes :=
      memReadSeq_of_agree hrx hbytes
    exact ⟨_, _, execVerify_of_read hsame, rfl, rfl⟩
  | crcInit | crcUpd b | crcRd | parAddr v | parFunc v | parStart v | parCount v | txLen | rxClr | rxLen | reset =>
    obtain rfl := Host.Outcome.next.inj h
    exact ⟨_, _, rfl, rfl, rfl⟩

/-- Settles O49: the word delivered is the one both runs of the command deliver. -/
theorem bytesBeyondLengthAreUnobservable : Obligations.BytesBeyondLengthAreUnobservable := by
  intro i s t m m' r htx hrx h hr
  obtain ⟨t', r', h', hr', hanswer⟩ := exec_answer_of_agree htx hrx h
  exact ⟨t', h', hanswer.trans (hr'.symm.trans hr)⟩

end Sys2Proof.Machine

/-! O33, O34, O35 and O36. The functions of the response validator (R120 to R124): `verify` of a body and two bytes, the same
as a zero CRC over all bytes, what one changed byte does to a CRC, and the payload. -/

namespace Sys2Proof.Machine

/-- A sequence of two bytes or more is a body and its last two bytes. -/
theorem exists_eq_append_pair {r : List Byte} (h : 2 ≤ r.length) :
    ∃ (body : List Byte) (x y : Byte), r = body ++ [x, y] := by
  obtain ⟨x, y, hlast⟩ := List.length_eq_two.mp (show (r.drop (r.length - 2)).length = 2 by rw [List.length_drop]; omega)
  exact ⟨r.take (r.length - 2), x, y, by rw [← hlast, List.take_append_drop]⟩

/-- Up to two bytes nothing verifies (R120, R122). -/
theorem verifyBytes_of_length_le_two {r : List Byte} (h : r.length ≤ 2) : verifyBytes r = false := if_pos h

theorem two_lt_length_of_verifyBytes {r : List Byte} (h : verifyBytes r = true) : 2 < r.length := by
  by_contra hshort
  simp [verifyBytes_of_length_le_two (Nat.not_lt.mp hshort)] at h

/-- A nonempty body and two bytes verify exactly when the two are the body's CRC, low byte first (R120). -/
theorem verifyBytes_append_pair {body : List Byte} (x y : Byte) (h : body ≠ []) :
    verifyBytes (body ++ [x, y]) = true ↔ computeCrc body = y ++ x := by
  have hpos := List.length_pos_iff.mpr h
  have hlen : (body ++ [x, y]).length = body.length + 2 := List.length_append
  rw [verifyBytes, hlen, if_neg (by omega)]
  simp [le16]

theorem toNat_append_byte (h l : Byte) : (h ++ l).toNat = h.toNat * 256 + l.toNat := by
  simpa using (toNat_hi8_mul_add_lo8 (h ++ l)).symm

/-- The CRC of the worked response's body (R122, R130). -/
theorem computeCrc_workedBody : computeCrc [0x01#8, 0x03#8, 0x02#8, 0x00#8, 0x0A#8] = 0x4338#16 := by
  simp [computeCrc, crcByte, crcShifts, crcShift, zext16]

/-- The worked response verifies: its last two bytes are the CRC of its body, low byte first (R122). -/
theorem verifyBytes_workedResponse :
    verifyBytes [0x01#8, 0x03#8, 0x02#8, 0x00#8, 0x0A#8, 0x38#8, 0x43#8] = true :=
  (verifyBytes_append_pair (body := [0x01#8, 0x03#8, 0x02#8, 0x00#8, 0x0A#8]) 0x38#8 0x43#8
    (List.cons_ne_nil _ _)).mpr computeCrc_workedBody

/-- One zero byte with its CRC verifies; no sequence that does is shorter (R122). -/
theorem verifyBytes_shortest : verifyBytes [0x00#8, 0xBF#8, 0x40#8] = true := by
  have hcrc : computeCrc [0x00#8] = 0x40BF#16 := by simp [computeCrc, crcByte, crcShifts, crcShift, zext16]
  exact (verifyBytes_append_pair 0xBF#8 0x40#8 (List.cons_ne_nil _ _)).mpr hcrc

/-- Settles O33: a body's CRC and the two bytes after it are compared as the numbers they are worth. -/
theorem verifyComparesBodyCrc : Obligations.VerifyComparesBodyCrc := by
  refine ⟨fun r => verifyBytes_of_length_le_two, fun body x y hbody => ?_, verifyBytes_workedResponse,
    verifyBytes_of_length_le_two (Nat.le_refl 2), rfl, verifyBytes_shortest⟩
  rw [verifyBytes_append_pair x y hbody, BitVec.toNat_eq, toNat_append_byte]

/-- The residue form (R123): above two bytes, the last two are the CRC of the body exactly when the CRC of all is zero. -/
theorem verifyBytes_iff_computeCrc_eq_zero {r : List Byte} (h : 2 < r.length) :
    verifyBytes r = true ↔ computeCrc r = 0#16 := by
  obtain ⟨body, x, y, rfl⟩ := exists_eq_append_pair (Nat.le_of_lt h)
  have hbody : body ≠ [] := by rintro rfl; exact absurd h (by simp)
  obtain ⟨-, -, -, hresidue⟩ := crcResidueAndInjectivity
  rw [verifyBytes_append_pair x y hbody, hresidue, eq_comm]

/-- Settles O34: `FF FF` is the initial value, so it is the CRC of the empty body before it, but the length test comes
first. -/
theorem verifyIsZeroResidue : Obligations.VerifyIsZeroResidue := by
  obtain ⟨-, -, -, hresidue⟩ := crcResidueAndInjectivity
  exact ⟨fun _ => verifyBytes_iff_computeCrc_eq_zero, (hresidue [] 0xFF#8 0xFF#8).mpr rfl,
    verifyBytes_of_length_le_two (Nat.le_refl 2)⟩

/-- Absorbing the same bytes keeps two accumulators apart (R87 (a)). -/
theorem crcFold_inj {a a' : Half} (data : List Byte) : crcFold a data = crcFold a' data ↔ a = a' := by
  induction data generalizing a a' with
  | nil => rfl
  | cons b data ih => exact ih.trans (crcByte_bijective b).injective.eq_iff

/-- Two bytes absorbed into one accumulator leave the same only when they are the same. -/
theorem crcByte_inj {a : Half} {b b' : Byte} : crcByte a b = crcByte a b' ↔ b = b' := by
  obtain ⟨h, l, rfl⟩ := exists_eq_append a
  rw [crcByte_append, crcByte_append, crcShifts_inj, append_inj_iff, BitVec.xor_right_inj]
  exact and_iff_right rfl

/-- One byte replaced by another changes the CRC: up to it nothing differs, there the accumulators part, and the bytes after
it keep them apart. -/
theorem computeCrc_append_cons_inj (before after : List Byte) {b b' : Byte} :
    computeCrc (before ++ b :: after) = computeCrc (before ++ b' :: after) ↔ b = b' := by
  rw [computeCrc, computeCrc, crcFold_append, crcFold_append, crcFold_cons, crcFold_cons, crcFold_inj, crcByte_inj]

/-- A byte put at an index leaves the CRC only where that byte was there already. -/
theorem computeCrc_set_eq_iff {r : List Byte} {i : Nat} (hi : i < r.length) (b : Byte) :
    computeCrc (r.set i b) = computeCrc r ↔ b = r[i] := by
  have h := computeCrc_append_cons_inj (r.take i) (r.drop (i + 1)) (b := b) (b' := r[i])
  rwa [← List.set_eq_take_cons_drop b hi, List.getElem_cons_drop hi, List.take_append_drop] at h

/-- A byte with one bit flipped is another byte. -/
theorem xor_bit_ne (b : Byte) {j : Nat} (hj : j < 8) : b ^^^ (1#8 <<< j) ≠ b := by
  have hbit : ∀ k < 8, 1#8 <<< k ≠ 0#8 := by decide
  intro h
  have hzero : b ^^^ (1#8 <<< j) = b ^^^ 0#8 := h.trans (BitVec.xor_zero).symm
  exact hbit j hj ((BitVec.xor_right_inj b).mp hzero)

/-- Settles O35: the CRC over all bytes is zero before the flip, and any change of one byte changes it (R123, R124). -/
theorem singleBitFlipFailsVerify : Obligations.SingleBitFlipFailsVerify := by
  intro r i j hverify hi hj
  have hlen := two_lt_length_of_verifyBytes hverify
  have hzero := (verifyBytes_iff_computeCrc_eq_zero hlen).mp hverify
  rw [List.getD_eq_getElem r 0#8 hi]
  refine Bool.eq_false_iff.mpr fun hflipped => xor_bit_ne r[i] hj ((computeCrc_set_eq_iff hi _).mp ?_)
  rw [hzero, (verifyBytes_iff_computeCrc_eq_zero (by rwa [List.length_set])).mp hflipped]

/-- The payload of a verified response is its body after the first three bytes (R121). -/
theorem payloadOf_append_pair {body : List Byte} {x y : Byte} (h : verifyBytes (body ++ [x, y]) = true) :
    payloadOf (body ++ [x, y]) = some (body.drop 3) := by
  rw [payloadOf, if_pos h, List.take_left' (by simp)]

/-- The payload of the worked response (R121, R130). -/
theorem payloadOf_workedResponse :
    payloadOf [0x01#8, 0x03#8, 0x02#8, 0x00#8, 0x0A#8, 0x38#8, 0x43#8] = some [0x00#8, 0x0A#8] :=
  payloadOf_append_pair (body := [0x01#8, 0x03#8, 0x02#8, 0x00#8, 0x0A#8]) verifyBytes_workedResponse

/-- Settles O36: of a response of 3 or 4 bytes the body has two bytes at most, and nothing is left of it after three. -/
theorem payloadIsMiddleOfVerifiedFrame : Obligations.PayloadIsMiddleOfVerifiedFrame := by
  refine ⟨fun r h => ?_, fun _ _ _ _ _ _ => payloadOf_append_pair, fun r h hlen => ?_, payloadOf_workedResponse⟩
  · rw [payloadOf, h, if_neg Bool.false_ne_true]
  · obtain ⟨body, x, y, rfl⟩ := exists_eq_append_pair (show 2 ≤ r.length by omega)
    rw [List.length_append, List.length_cons, List.length_singleton] at hlen
    rw [payloadOf_append_pair h, List.drop_eq_nil_of_le (by omega)]

end Sys2Proof.Machine

/-! O37, O38, O40, O58 and O59. What each command of the response validator does, and the frames of its writes and of `RESET`
(R125 to R128, R140). -/

namespace Sys2Proof.Machine

/-- `RX.CLR` empties the buffer, answers 0 and changes nothing else (R125). -/
theorem exec_rxClr (s : State) :
    exec .rxClr s = .next { s with rxBuf := [], rxLen := 0#16, responses := s.responses ++ [0x00000000#32] } := by
  rw [exec, execRxClr, respond_eq, State.setRxLen_zero, okWord_zero]
  rfl

/-- Settles O37: `RX.CLR` has one outcome. -/
theorem rxClrEmptiesBuffer : Obligations.RxClrEmptiesBuffer := exec_rxClr

/-- Settles O38: whether `RXLEN` is at `RX_CAP` decides between the two outcomes. -/
theorem rxPushAppendsOrRejects : Obligations.RxPushAppendsOrRejects :=
  fun b _ => ⟨fun _ => exec_rxPush_room b, exec_rxPush_full b⟩

/-- `VERIFY` on a buffer given by its bytes answers whether they verify (R128). -/
theorem exec_verify_ofBytes {s : State} {bytes : List Byte} (hbuf : s.rxBuf = Memory.ofBytes 0 bytes)
    (hlen : bytes.length = s.rxLen.toNat) (hcap : s.rxLen.toNat ≤ s.rxCap.toNat) :
    exec .verify s = .next { s with
      responses := s.responses ++ [if verifyBytes bytes = true then 0x00000001#32 else 0x00000000#32] } := by
  have hholds : s.rxBuf.holds s.rxLen.toNat := by
    rw [hbuf, ← hlen]
    exact Memory.holds_ofBytes bytes
  have hbytes : s.rxBuf.bytes = bytes := by rw [hbuf, Memory.bytes_ofBytes]
  rw [exec_verify_holds ⟨hholds, hcap⟩, hbytes, okWord_one, okWord_zero]
  rfl

/-- Settles O40: the two clauses are the two truth values of `verify`. -/
theorem verifyAnswersValidity : Obligations.VerifyAnswersValidity := by
  intro s bytes hbuf hlen hcap
  refine ⟨fun h => ?_, fun h => ?_⟩
  · rw [exec_verify_ofBytes hbuf hlen hcap, h, if_pos rfl]
  · rw [exec_verify_ofBytes hbuf hlen hcap, h, if_neg Bool.false_ne_true]

/-- What is read once a byte is appended: the byte at the old length, elsewhere what was read before. -/
theorem Memory.read_ofBytes_append_singleton (bytes : List Byte) (b : Byte) (a : Nat) :
    (Memory.ofBytes 0 (bytes ++ [b])).read a = if a = bytes.length then some b else (Memory.ofBytes 0 bytes).read a := by
  rw [← Memory.write_ofBytes_length, Memory.read_write]

/-- Settles O58: at `RX_CAP` only a response is delivered, below it the byte is appended. -/
theorem frameOfRxPush : Obligations.FrameOfRxPush := by
  intro b s t ⟨⟨hlen, hbuf⟩, _⟩ h
  rcases execRxPush_next h with ⟨hfull, rfl⟩ | ⟨hroom, -⟩
  · refine ⟨rfl, rfl, rfl, rfl, rfl, rfl, rfl, rfl, fun _ => rfl, fun _ _ => rfl, fun hroom => ?_, fun _ _ => rfl⟩
    exact absurd (congrArg BitVec.toNat hfull) (Nat.ne_of_lt hroom)
  · obtain rfl := Host.Outcome.next.inj ((exec_rxPush_room b hbuf hlen hroom).symm.trans h)
    have hread := Memory.read_ofBytes_append_singleton s.rxBuf.bytes b
    rw [hlen, ← hbuf] at hread
    refine ⟨rfl, rfl, rfl, rfl, rfl, rfl, rfl, rfl, fun _ => rfl, fun a ha => (hread a).trans (if_neg ha),
      fun _ => (hread _).trans (if_pos rfl), fun hfull => ?_⟩
    exact absurd (congrArg BitVec.toNat hfull) (Nat.ne_of_lt hroom)

/-- `RESET` leaves of the state `RX_CAP` and the two ports, and answers 0 (R140). -/
theorem exec_reset (s : State) :
    exec .reset s = .next { State.resetFor s.rxCap with host := s.host, responses := s.responses ++ [0x00000000#32] } := by
  rw [exec, execReset, respond_eq, State.resetBlock_eq, okWord_zero]
  rfl

/-- Settles O59: both leave an empty buffer, which has no byte at any index. -/
theorem frameOfRxClrAndReset : Obligations.FrameOfRxClrAndReset := by
  refine ⟨fun s t h => ?_, fun s t h => ?_⟩
  · obtain rfl := Host.Outcome.next.inj ((exec_rxClr s).symm.trans h)
    exact ⟨rfl, rfl, rfl, rfl, rfl, rfl, rfl, rfl, fun _ => rfl, Memory.read_nil⟩
  · obtain rfl := Host.Outcome.next.inj ((exec_reset s).symm.trans h)
    exact ⟨rfl, rfl, Memory.read_nil, Memory.read_nil⟩

end Sys2Proof.Machine

/-! O41 and O42. The `CHECK` sequence as a run, and the spec's end-to-end scenario (R129, R130). -/

namespace Sys2Proof.Machine

/-- A run of pushes into an empty buffer and `VERIFY`: the answer judges the bytes up to `RX_CAP`. -/
theorem runSteps_rxPush_verify {s : State} (r : List Byte) (rest : List HostEvent) (hbuf : s.rxBuf = [])
    (hlen : s.rxLen = 0#16) :
    runSteps (r.length + 1) { s with host := hostProgram (r.map .rxPush ++ [.verify]) ++ rest } = .next { s with
      rxBuf := Memory.ofBytes 0 (r.take s.rxCap.toNat), rxLen := BitVec.ofNat 16 (min r.length s.rxCap.toNat), host := rest
      responses := s.responses ++ List.replicate (min r.length s.rxCap.toNat) 0x00000000#32 ++
        List.replicate (r.length - s.rxCap.toNat) 0x50000000#32 ++
        [if verifyBytes (r.take s.rxCap.toNat) = true then 0x00000001#32 else 0x00000000#32] } := by
  have hkept : (BitVec.ofNat 16 (min r.length s.rxCap.toNat)).toNat = min r.length s.rxCap.toNat := by
    have := s.rxCap.isLt
    exact Nat.mod_eq_of_lt (by omega)
  have hpush := runSteps_rxPush_of_empty r (hostProgram [.verify] ++ rest) hbuf hlen
  rw [hostProgram_append, List.append_assoc, runSteps_add 1 hpush, runSteps_encode rfl (exec_verify_ofBytes rfl ?_ ?_),
    runSteps_zero]
  · rfl
  · rw [List.length_take, Nat.min_comm]
    exact hkept.symm
  · exact hkept.trans_le (Nat.min_le_right ..)

/-- Settles O41: `RX.CLR` leaves an empty buffer, whatever the state held. -/
theorem checkSequenceJudgesResponse : Obligations.CheckSequenceJudgesResponse := by
  intro s r rest
  rw [runSteps_encode rfl (exec_rxClr _)]
  exact runSteps_rxPush_verify (s := { s with rxBuf := [], rxLen := 0#16, responses := s.responses ++ [0x00000000#32] })
    r rest rfl rfl

/-- Settles O42: the scenario is a `CHECK` of the worked response, which fits the default capacity. -/
theorem endToEndScenario : Obligations.EndToEndScenario := by
  have hcheck := checkSequenceJudgesResponse State.reset
    [0x01#8, 0x03#8, 0x02#8, 0x00#8, 0x0A#8, 0x38#8, 0x43#8] []
  rw [List.append_nil] at hcheck
  refine ⟨computeCrc_workedBody, ⟨_, hcheck, ?_, Memory.bytes_ofBytes ..⟩, payloadOf_workedResponse⟩
  rw [List.getLast?_concat]
  exact congrArg some (if_pos verifyBytes_workedResponse)

end Sys2Proof.Machine

/-! O43. The `RESET` command (R140). -/

namespace Sys2Proof.Machine

/-- Settles O43, by the equation of the shared reset with the reset state, followed by the response word. -/
theorem resetCommandRestoresResetState : Obligations.ResetCommandRestoresResetState := exec_reset

end Sys2Proof.Machine

/-! O53, O44 and O45. No event stops a block within the invariants; which error each command raises, when, and that an error
changes nothing but the responses (R150 to R155). -/

namespace Sys2Proof.Machine

/-- Settles O53: a safe step answers a next state. -/
theorem stepNeverStops : Obligations.StepNeverStops := by
  intro s hs
  obtain ⟨t, hstep, -⟩ := step_safe hs
  exact ⟨t, hstep⟩

/-- The command raises the error in the state (R151, R153 to R155). No command raises `IllegalCommand`: the decoder does
(R152). -/
def Raises (i : Instr) (s : State) : Error → Prop
  | .parameterOutOfRange k => i = .build ∧ s.checkParams = .outOfRange k
  | .illegalCommand => False
  | .sequenceError => i = .attach ∧ s.txLen ≠ 6#4
  | .indexOutOfRange => ∃ b : Byte, i = .txRd b ∧ s.txLen.toNat ≤ b.toNat
  | .bufferFull => ∃ b : Byte, i = .rxPush b ∧ s.rxLen = s.rxCap

/-- A command that raises an error delivers the error's word and changes nothing else. -/
theorem exec_of_raises {i : Instr} {s : State} {e : Error} (h : Raises i s e) :
    exec i s = .next (s.answer (errorWord e)) := by
  cases e with
  | parameterOutOfRange k =>
    obtain ⟨rfl, hbad⟩ := h
    exact exec_build_outOfRange hbad
  | illegalCommand => exact h.elim
  | sequenceError =>
    obtain ⟨rfl, h6⟩ := h
    exact execAttach_reject s h6
  | indexOutOfRange =>
    obtain ⟨b, rfl, hb⟩ := h
    exact execTxRd_above hb
  | bufferFull =>
    obtain ⟨b, rfl, hfull⟩ := h
    exact execRxPush_full hfull

/-- A command that answers has raised an error and changed nothing else, or has delivered an `OK` word. -/
theorem exec_raises_or_ok {i : Instr} {s t : State} (h : exec i s = .next t) :
    (∃ e, Raises i s e ∧ t = s.answer (errorWord e)) ∨ ∃ v, t.responses = s.responses ++ [okWord v] := by
  cases i with
  | build =>
    rcases execBuild_eq s with ⟨k, hbad, h'⟩ | ⟨-, h'⟩ <;> obtain rfl := Host.Outcome.next.inj (h'.symm.trans h)
    · exact .inl ⟨.parameterOutOfRange k, ⟨rfl, hbad⟩, rfl⟩
    · exact .inr ⟨_, rfl⟩
  | attach =>
    rcases execAttach_next h with ⟨h6, rfl⟩ | ⟨-, frame, -, rfl⟩
    · exact .inl ⟨.sequenceError, ⟨rfl, h6⟩, rfl⟩
    · exact .inr ⟨_, rfl⟩
  | txRd b =>
    rcases execTxRd_next h with ⟨hb, rfl⟩ | ⟨-, v, -, rfl⟩
    · exact .inl ⟨.indexOutOfRange, ⟨b, rfl, hb⟩, rfl⟩
    · exact .inr ⟨_, rfl⟩
  | rxPush b =>
    rcases execRxPush_next h with ⟨hfull, rfl⟩ | ⟨-, rfl⟩
    · exact .inl ⟨.bufferFull, ⟨b, rfl, hfull⟩, rfl⟩
    · exact .inr ⟨_, rfl⟩
  | verify =>
    obtain ⟨r, -, rfl⟩ := execVerify_next h
    right
    split <;> exact ⟨_, rfl⟩
  | crcInit | crcUpd b | crcRd | parAddr v | parFunc v | parStart v | parCount v | txLen | rxClr | rxLen | reset =>
    obtain rfl := Host.Outcome.next.inj h
    exact .inr ⟨_, rfl⟩

/-- The decoder included: a command word's answer is an error that changes nothing else, or an `OK` word. -/
theorem runCommand_error_or_ok {w : Command} {s t : State} (h : runCommand w s = .next t) :
    (∃ e, t = s.answer (errorWord e)) ∨ ∃ v, t.responses = s.responses ++ [okWord v] := by
  rw [runCommand] at h
  cases hd : decode w with
  | ok i =>
    rw [hd] at h
    exact (exec_raises_or_ok h).imp_left fun ⟨e, _, ht⟩ => ⟨e, ht⟩
  | error _ =>
    rw [hd] at h
    exact .inl ⟨.illegalCommand, (Host.Outcome.next.inj h).symm⟩

/-- `STAT` of a command that ends well (R65, R66). -/
@[simp] theorem statField_okWord (v : Half) : statField (okWord v) = 0#4 := statField_responseWord ..

/-- `STAT` of an error (R65, R66). -/
@[simp] theorem statField_errorWord (e : Error) : statField (errorWord e) = e.status.code := statField_responseWord ..

/-- `INFO` of an error (R65, R150). -/
@[simp] theorem infoField_errorWord (e : Error) : infoField (errorWord e) = e.info := infoField_responseWord ..

/-- Settles O44: an `OK` word has `STAT` 0, and an error delivers its word and changes nothing else. -/
theorem errorsChangeNothing : Obligations.ErrorsChangeNothing := by
  intro w s t h
  rcases runCommand_error_or_ok h with ⟨e, rfl⟩ | ⟨v, hr⟩
  · exact ⟨errorWord e, rfl, fun _ => ⟨rfl, valueField_responseWord .., e, rfl⟩⟩
  · exact ⟨okWord v, hr, fun hstat => absurd (statField_okWord v) hstat⟩

/-- No two statuses share a code (R66). -/
theorem Status.code_injective : Function.Injective Status.code := by
  intro st st'
  cases st <;> cases st' <;> decide

/-- What some error meets, one of the five kinds meets. -/
theorem Error.exists_iff {p : Error → Prop} :
    (∃ e, p e) ↔ (∃ k, p (.parameterOutOfRange k)) ∨ p .illegalCommand ∨ p .sequenceError ∨ p .indexOutOfRange ∨
      p .bufferFull := by
  constructor
  · rintro ⟨e, he⟩
    cases e with
    | parameterOutOfRange k => exact .inl ⟨k, he⟩
    | illegalCommand | sequenceError | indexOutOfRange | bufferFull => simp [he]
  · rintro (⟨k, he⟩ | he | he | he | he) <;> exact ⟨_, he⟩

/-- The word a command that raises an error has delivered. -/
theorem response_of_raises {i : Instr} {s t : State} {r : Word} {e : Error} (h : exec i s = .next t)
    (hr : t.responses = s.responses ++ [r]) (he : Raises i s e) : r = errorWord e := by
  obtain rfl := Host.Outcome.next.inj ((exec_of_raises he).symm.trans h)
  simpa using hr.symm

/-- A command's answer has an error's status exactly when the command raises an error of that status. -/
theorem statField_eq_code_iff {i : Instr} {s t : State} {r : Word} {st : Status} (h : exec i s = .next t)
    (hr : t.responses = s.responses ++ [r]) (hst : st ≠ .ok) :
    statField r = st.code ↔ ∃ e : Error, e.status = st ∧ Raises i s e := by
  constructor
  · intro hcode
    rcases exec_raises_or_ok h with ⟨e, he, -⟩ | ⟨v, hv⟩
    · rw [response_of_raises h hr he, statField_errorWord] at hcode
      exact ⟨e, Status.code_injective hcode, he⟩
    · obtain rfl : r = okWord v := by simpa using hr.symm.trans hv
      rw [statField_okWord] at hcode
      exact absurd (@Status.code_injective .ok st hcode).symm hst
  · rintro ⟨e, rfl, he⟩
    rw [response_of_raises h hr he, statField_errorWord]

/-- Settles O45: a status stands for its kinds of error, and each kind has its command and condition. -/
theorem errorsComeFromTheirCommands : Obligations.ErrorsComeFromTheirCommands := by
  intro i s t r h hr
  have hstat (st : Status) (hst : st ≠ .ok) := (statField_eq_code_iff h hr hst).trans Error.exists_iff
  refine ⟨?_, fun k hi hbad => ?_, ?_, ?_, ?_, ?_, ?_⟩
  · simpa [Error.status, Status.code, Raises, State.checkParams] using hstat .parameterOutOfRange (by decide)
  · rw [response_of_raises h hr (e := .parameterOutOfRange k) ⟨hi, hbad⟩, infoField_errorWord]
    rfl
  · simpa [Error.status, Status.code, Raises] using hstat .sequenceError (by decide)
  · simpa [Error.status, Status.code, Raises] using hstat .indexOutOfRange (by decide)
  · simpa [Error.status, Status.code, Raises] using hstat .bufferFull (by decide)
  · simpa [Error.status, Status.code, Raises] using hstat .illegalCommand (by decide)
  · obtain ⟨r', hr', -, -, -, -, hinfo⟩ := exec_delivers_lawfulResponse h
    obtain rfl : r = r' := by simpa using hr.symm.trans hr'
    exact hinfo

end Sys2Proof.Machine

/-! O9. The reset event (R170, R171). -/

namespace Sys2Proof.Machine

/-- Settles O9: the step takes the event off the host's list and runs the shared reset, which is the reset state on the
block's side. -/
theorem resetEventRestoresResetState : Obligations.ResetEventRestoresResetState := by
  intro s rest
  calc step { s with host := .reset :: rest }
      = runEvent .reset { s with host := rest } := step_cons s .reset rest
    _ = .next { s with host := rest }.resetBlock := rfl
    _ = .next { State.resetFor s.rxCap with host := rest, responses := s.responses } := by rw [State.resetBlock_eq]

end Sys2Proof.Machine

/-! O56. The frame of the eleven commands that store no byte: five reads, and six writes of `ACC` or a parameter register. -/

namespace Sys2Proof.Machine

/-- A command that stores no byte and resets nothing leaves both buffers and both lengths. -/
theorem exec_buffers_of_no_store {i : Instr} {s t : State} (hi : i ∉ [Instr.build, .attach, .rxClr, .reset])
    (hpush : ∀ b, i ≠ .rxPush b) (h : exec i s = .next t) :
    t.txBuf = s.txBuf ∧ t.rxBuf = s.rxBuf ∧ t.txLen = s.txLen ∧ t.rxLen = s.rxLen := by
  cases i with
  | crcRd | txLen | txRd b | rxLen | verify =>
    obtain ⟨r, rfl⟩ := exec_read (by simp) h
    exact ⟨rfl, rfl, rfl, rfl⟩
  | crcInit | crcUpd b | parAddr v | parFunc v | parStart v | parCount v =>
    obtain rfl := Host.Outcome.next.inj h
    exact ⟨rfl, rfl, rfl, rfl⟩
  | rxPush b => exact absurd rfl (hpush b)
  | build | attach | rxClr | reset => simp at hi

/-- Only `CRC.UPD` absorbs a byte (R91). -/
theorem absorbedByte_eq_none {i : Instr} (h : ∀ b, i ≠ .crcUpd b) : absorbedByte i = none := by
  cases i with
  | crcUpd b => exact absurd rfl (h b)
  | crcInit | crcRd | parAddr v | parFunc v | parStart v | parCount v | build | attach | txLen | txRd b | rxClr | rxPush b
  | rxLen | verify | reset => rfl

/-- Settles O56: the buffers stay, `ACC` stays when no byte is absorbed, and each parameter register has its own command. -/
theorem frameOfCommandsThatStoreNoByte : Obligations.FrameOfCommandsThatStoreNoByte := by
  intro i s t hi hpush h
  have hreset : i ≠ .reset := fun heq => hi (by simp [heq])
  obtain ⟨htxBuf, hrxBuf, htxLen, hrxLen⟩ := exec_buffers_of_no_store hi hpush h
  obtain ⟨hacc, -, -, -, -, hrxCap⟩ := exec_registers h
  obtain ⟨hhost, -⟩ := exec_host h
  refine ⟨fun a => by rw [htxBuf], fun a => by rw [hrxBuf], htxLen, hrxLen, hrxCap, hhost, fun hinit hupd => ?_,
    exec_par_frame hreset h⟩
  calc t.acc = (writeRegisters i s).acc := hacc
    _ = crcFold s.acc (absorbedByte i).toList := writeRegisters_acc_eq_crcFold s hinit hreset
    _ = s.acc := by rw [absorbedByte_eq_none hupd, Option.toList_none, crcFold_nil]

end Sys2Proof.Machine
